-- ==== Sys2Proof/Word.lean ====
section
/-! DEFINITION. Sys2Proof/Word.lean: the widths the spec gives its values (R9, R11). Bit 0 is the least
significant bit of every value. -/

namespace Sys2Proof

/-- One byte of OUTMEM (R80). -/
abbrev Byte := BitVec 8

/-- One CSR word, and the write or read data of a BUS transaction (R81, R111). -/
abbrev Word := BitVec 32

/-- One wide sample as the SOURCE delivers it: FRAME_W = 32 (R9). -/
abbrev Frame := BitVec 32

/-- One narrow sample after conversion: SAMPLE_W = 16 (R9). -/
abbrev Sample := BitVec 16

/-- An OUTMEM byte address: ADDR_W = 32 (R9). -/
abbrev Addr := BitVec 32

/-- The 16-bit counters of the engine and the byte count N: LEN_W = 16 (R9, R49 to R53). -/
abbrev Count := BitVec 16

/-- The descriptor of a BUS transaction: WE in bit 6, OFF in bits 5:0 (R111). -/
abbrev Descriptor := BitVec 7

/-- One beat of the source channel: KIND in bit 33, ST in bit 32, DATA in bits 31:0 (R116). -/
abbrev Beat := BitVec 34

end Sys2Proof
end

