-- ==== Sys2Proof/Config.lean ====
section
/-! DEFINITION. Sys2Proof/Config.lean: the implementation parameters of R9 and the free values. A constant
without a body is one the spec leaves open; no proof can see its value. -/

namespace Sys2Proof

/-- BURST_CAP, the capacity of the Burst buffer in Frames: default 256, legal 1 to 32767 (R9, R10). The machine
reads it from PARAM (`Csr.burstCap`), which `State.reset` sets to this value; a statement about every state
quantifies over PARAM (log 11). -/
def Config.burstCap : Count := 256

/-- CSR_BASE, the host-bus address of CSR offset 0x00: OPEN, the platform places it (R9, R94). No step reads it: a
BUS transaction carries the offset alone (R111). Its width is a DESIGN CHOICE (log 10). -/
opaque Config.csrBase : Word

/-- The host-bus address of a CSR offset (R33, R94). -/
def Config.csrAddress (off : BitVec 6) : Word := Config.csrBase + off.setWidth 32

/-- HOST_SEES_WRITES: whether a host read after it has seen DONE = 1 sees the block's output writes without host
cache maintenance. OPEN (R9, R98, R104; log 10). -/
opaque Config.hostSeesWrites : Bool

/-- What entry `j` of the Burst buffer holds after the `n`-th reset, until a FRAME step writes it: unspecified
(R54, R56; log 6). -/
opaque Config.burstUnspecified : Nat → Nat → Frame

/-- Which of the admitted values the `n`-th byte the HOST reads returns (R99; log 8). -/
opaque Config.raceChoice : Nat → Nat

end Sys2Proof
end

