-- ==== Sys2Proof/Syntax.lean ====
section
/-! DEFINITION. Sys2Proof/Syntax.lean: the transactions the block decodes (R110), one constructor of `Instr` for each row of
spec/opcode_table.json, and the raw words they are decoded from.

A constructor carries every bit its row leaves free, the ignored ones too (R121), so that `encode` gives the word
back; no meaning reads an ignored bit (log 16). -/

namespace Sys2Proof

/-- The three interfaces on which the block decodes (R110). -/
inductive Port
  /-- HOST to block: one CSR read or write (R111). -/
  | bus
  /-- HOST to block, as the write data of a CTRL write: one command (R113). -/
  | cmd
  /-- SOURCE to block: one beat (R116). -/
  | src
deriving DecidableEq, Repr

/-- A raw transaction, as its interface carries it. -/
inductive Raw
  /-- Descriptor `t` and write data; a read carries no data (R111). -/
  | bus (t : Descriptor) (wdata : Word)
  /-- A command word (R113). -/
  | cmd (w : Word)
  /-- A source beat (R116). -/
  | src (b : Beat)
deriving DecidableEq, Repr

/-- Why a number is no transaction of an interface. -/
inductive DecodeError
  /-- A bit above the format's width is set. -/
  | bitsAboveFormat
  /-- The byte string is not as long as the format. -/
  | wrongLength
deriving DecidableEq, Repr

/-- The transactions. `len` and `rsv` are bits 31:16 and 15:4 of a command word, `op` its opcode, `lane` is OFF[1:0] of a
descriptor, `slot` OFF[5:2], `w` the write data, `st` bit 32 of a beat, `data` its bits 31:0. -/
inductive Instr
  -- CMD (R113, R114)
  /-- OP 0 (R171). -/
  | nop (len : BitVec 16) (rsv : BitVec 12)
  /-- OP 1 (R172). -/
  | pull (len : BitVec 16) (rsv : BitVec 12)
  /-- OP 2 (R174). -/
  | ack (len : BitVec 16) (rsv : BitVec 12)
  /-- OP 3 (R175). -/
  | reservedCmd3 (len : BitVec 16) (rsv : BitVec 12)
  /-- OP 4 to 7 (R175). -/
  | reservedCmd4to7 (len : BitVec 16) (rsv : BitVec 12) (op : BitVec 4)
  /-- OP 8 to 15 (R175). -/
  | reservedCmd8to15 (len : BitVec 16) (rsv : BitVec 12) (op : BitVec 4)
  -- BUS reads (R112)
  /-- Descriptor 0x00 (R192). -/
  | rdCtrl (lane : BitVec 2)
  /-- Descriptor 0x04 (R194). -/
  | rdStatus (lane : BitVec 2)
  /-- Descriptor 0x08 (R196). -/
  | rdBufBase (lane : BitVec 2)
  /-- Descriptor 0x0C (R198). -/
  | rdGain (lane : BitVec 2)
  /-- Descriptor 0x10 (R200). -/
  | rdClamp (lane : BitVec 2)
  /-- Descriptor 0x14 (R202). -/
  | rdParam (lane : BitVec 2)
  /-- Descriptor 0x18 (R204). -/
  | rdReqLen (lane : BitVec 2)
  /-- Descriptor 0x1C (R206). -/
  | rdRsv1C (lane : BitVec 2)
  /-- Descriptors 0x20 to 0x3F (R206). -/
  | rdRsv20to3F (slot : BitVec 4) (lane : BitVec 2)
  -- BUS writes (R112)
  /-- Descriptor 0x40 (R193). -/
  | wrCtrl (lane : BitVec 2) (w : Word)
  /-- Descriptor 0x44 (R195). -/
  | wrStatus (lane : BitVec 2) (w : Word)
  /-- Descriptor 0x48 (R197). -/
  | wrBufBase (lane : BitVec 2) (w : Word)
  /-- Descriptor 0x4C (R199). -/
  | wrGain (lane : BitVec 2) (w : Word)
  /-- Descriptor 0x50 (R201). -/
  | wrClamp (lane : BitVec 2) (w : Word)
  /-- Descriptor 0x54 (R203). -/
  | wrParam (lane : BitVec 2) (w : Word)
  /-- Descriptor 0x58 (R205). -/
  | wrReqLen (lane : BitVec 2) (w : Word)
  /-- Descriptor 0x5C (R207). -/
  | wrRsv5C (lane : BitVec 2) (w : Word)
  /-- Descriptors 0x60 to 0x7F (R207). -/
  | wrRsv60to7F (slot : BitVec 4) (lane : BitVec 2) (w : Word)
  -- SRC (R116)
  /-- KIND 0: `Frame(d)` (R222). -/
  | frame (st : BitVec 1) (d : Frame)
  /-- KIND 1, ST 0: `End(Ok)` (R224). -/
  | endOk (data : BitVec 32)
  /-- KIND 1, ST 1: `End(Fault)` (R225). -/
  | endFault (data : BitVec 32)
deriving DecidableEq, Repr

/-- A row of the opcode table: the interface, and the match and mask over its number (R111, R114, R116). -/
structure Row where
  port : Port
  pattern : Nat
  mask : Nat
deriving DecidableEq, Repr

/-- The host's own abbreviations for CSR writes (R125). `wait_done` is a host loop of `rd STATUS` and is no transaction. -/
inductive Pseudo
  | nop
  | pull (n : Count)
  | ack
  | setbase (a : Addr)
  | setgain (g : BitVec 16) (sh : BitVec 4)
  | setclamp (lo hi : BitVec 16)
deriving DecidableEq, Repr

end Sys2Proof
end

