-- ==== Sys2Proof/Machine/State.lean ====
section
/-! DEFINITION. Sys2Proof/Machine/State.lean: the state, its value right after reset, and the reasons a step can stop.

The block's own state is `csr`, `eng` and `burst` (R30). The other fields are what the block's steps touch outside it (OUTMEM, the
source channel, the HOST's view of OUTMEM) and the model's own bookkeeping (log 19). -/

namespace Sys2Proof.Machine

open Sys2Proof

/-- `eng.state` (R48). -/
inductive EngState
  /-- No pull in flight. -/
  | idle
  /-- About to test `produced < len` and issue the next read. -/
  | issue
  /-- One read outstanding; its beats are being accepted. -/
  | wait
  /-- The read ended Ok; its Frames are being converted and written. -/
  | write
deriving DecidableEq, Repr

/-- STATUS.RESULT (R38). -/
inductive Result
  /-- Code 0, NONE: no result held. -/
  | none
  /-- Code 1, OK: the last pull wrote exactly LEN bytes. -/
  | ok
  /-- Code 2, FAULT: a source read ended with Fault. -/
  | fault
  /-- Code 3, REJECTED: the last PULL had LEN 0 or odd LEN. -/
  | rejected
deriving DecidableEq, Repr

/-- What the CSR file stores (R33 to R46). BUSY, PRODUCED and REQ_LEN are computed from the engine; CTRL and the reserved
slots hold nothing. -/
structure Csr where
  /-- STATUS.DONE (R37). -/
  done : Bool
  /-- STATUS.RESULT (R38). -/
  result : Result
  /-- STATUS.PROTO_ERR, sticky (R39). -/
  protoErr : Bool
  /-- BUF_BASE (R41). -/
  bufBase : Addr
  /-- GAIN.GAIN, bits 15:0 (R42). -/
  gain : BitVec 16
  /-- GAIN.SHIFT, bits 19:16 (R42). -/
  shift : BitVec 4
  /-- CLAMP.LO, bits 15:0 (R43). -/
  clampLo : BitVec 16
  /-- CLAMP.HI, bits 31:16 (R43). -/
  clampHi : BitVec 16
  /-- PARAM.BURST_CAP, hardwired: no step writes it (R44; log 11). -/
  burstCap : Count
deriving DecidableEq, Repr

/-- The engine state (R48 to R53). -/
structure Engine where
  state : EngState
  /-- LEN of the last PULL that reached the length check (R49). -/
  len : Count
  /-- The cursor: bytes written by the current or last pull (R50). -/
  produced : Count
  /-- Frame count of the outstanding or last read request (R51). -/
  req : Count
  /-- Frame beats accepted for the current read (R52). -/
  k : Count
  /-- Index of the next Burst entry to convert and write (R53). -/
  i : Count
deriving DecidableEq, Repr

/-- A step of one agent (R6, R7). The schedule lists which is taken next (log 1). -/
inductive Event
  /-- HOST performs the BUS transaction with this descriptor and write data. -/
  | host (t : Descriptor) (wdata : Word)
  /-- SOURCE puts a beat at the end of its in-order channel (R223). -/
  | offer (b : Beat)
  /-- The beat at the head of the channel is presented to the block (R223). -/
  | source
  /-- ENGINE takes its enabled step; the flag says whether OUTMEM accepts a write now (R93, R226). -/
  | engine (memAccepts : Bool)
  /-- The platform takes the block's reset step (R340). -/
  | reset
  /-- The SOURCE is reset or torn down: its channel is emptied (R352). -/
  | sourceReset
  /-- HOST reads `n` bytes of OUTMEM by its own path (R14, R98, R99). -/
  | memRead (addr : Addr) (n : Nat)
  /-- HOST writes a byte of OUTMEM by its own path (R100). -/
  | memWrite (addr : Addr) (b : Byte)
  /-- HOST observes the level of `irq` (R55, R97). -/
  | watchIrq
  /-- HOST does its own cache maintenance (R98, R104). -/
  | maintain
deriving DecidableEq, Repr

/-- What is emitted at the interfaces, recorded so that a statement can speak of it (R110; log 3). -/
inductive Observation
  /-- RDATA of a CSR read (R111). -/
  | rdata (v : Word)
  /-- `SrcReq(c)` (R118). -/
  | req (c : Count)
  /-- A MEMWR transaction (R119). -/
  | memwr (addr : Addr) (data : Sample)
  /-- The value of a HOST MemRead (R14). -/
  | hostData (v : Nat)
  /-- The level of `irq` the HOST saw (R55). -/
  | irq (level : Bool)
deriving DecidableEq, Repr

/-- OUTMEM as the HOST's own reads see it (R97 to R99; log 7): two memories, and the block's byte writes that stand between them
and OUTMEM, oldest first. -/
structure HostSide where
  /-- The memory its reads are certain to be ordered after (R98). -/
  view : List Host.Cell
  /-- OUTMEM as it stood when it last observed DONE = 1 (R97, R98). -/
  acquired : List Host.Cell
  /-- The block's writes after `view` that it has acquired, for its own maintenance to bring into view (R98, R104). -/
  unmaintained : List Host.Cell
  /-- The block's writes it has not acquired. -/
  unacquired : List Host.Cell
deriving DecidableEq, Repr

/-- The machine. -/
structure State where
  /-- The CSR file. -/
  csr : Csr
  /-- The engine. -/
  eng : Engine
  /-- The Burst buffer: the entries written since reset, by rising index (R54; log 6). -/
  burst : List (Nat × Frame)
  /-- OUTMEM, in canonical form (R80; log 5). -/
  outmem : List Host.Cell
  /-- The beats SOURCE has offered and the block has not accepted, in order (R223; log 4). -/
  channel : List Beat
  /-- What the HOST's own reads of OUTMEM see (R97 to R99; log 7). -/
  host : HostSide
  /-- The agents' next steps (log 1). -/
  schedule : List Event
  /-- What has been emitted, newest first (log 3). -/
  trace : List Observation
  /-- How many resets there have been: selects what an unwritten Burst entry holds (log 6). -/
  resets : Nat
  /-- How many bytes the HOST has read: selects the free choice of the next (log 8). -/
  freeCount : Nat
deriving DecidableEq, Repr

/-- Why the model stops. -/
inductive Fault
  /-- HOST wrote a byte of the output region while BUSY is 1, against its contract (R100). Raised by the HOST's memory write
  alone, never by a transaction of the opcode table. Safe: nothing is proved of what follows. -/
  | hostWroteRegion
deriving DecidableEq, Repr

/-- Why an instruction has no meaning. -/
inductive Refusal
  /-- An instruction without a meaning yet. Safe. No arm of `exec` answers it. -/
  | notModelled (mnemonic : String)
deriving DecidableEq, Repr

/-- The CSR file after reset (R56). -/
def Csr.reset : Csr where
  done := false
  result := .none
  protoErr := false
  bufBase := 0x00000000
  gain := 4
  shift := 0
  clampLo := 0x8000
  clampHi := 0x7FFF
  burstCap := Config.burstCap

/-- The engine after reset (R56). -/
def Engine.reset : Engine where
  state := .idle
  len := 0
  produced := 0
  req := 0
  k := 0
  i := 0

/-- The HOST has seen all of OUTMEM, which is empty (log 19). -/
def HostSide.reset : HostSide where
  view := []
  acquired := []
  unmaintained := []
  unacquired := []

/-- The machine right after reset (R56, R343): idle, nothing written, nothing scheduled (log 19). -/
def State.reset : State where
  csr := Csr.reset
  eng := Engine.reset
  burst := []
  outmem := []
  channel := []
  host := HostSide.reset
  schedule := []
  trace := []
  resets := 0
  freeCount := 0

end Sys2Proof.Machine
end

