-- ==== Sys2Proof/Machine/Ops.lean ====
section
/-! DEFINITION. Sys2Proof/Machine/Ops.lean: the named operations over the state: lists of cells, OUTMEM, the Burst buffer, the
HOST's view, and the ends of a pull (`complete`, ACK's release), which stand where a processor has exception entry and return
(R307, R308). -/

namespace Sys2Proof.Machine

open Sys2Proof

/-! ## Cells: data by number, listed by strictly rising number -/

/-- The value listed for `k`, if any. -/
def cellLookup {α : Type} (k : Nat) : List (Nat × α) → Option α
  | [] => none
  | (a, v) :: rest => if a = k then some v else cellLookup k rest

/-- List `v` for `k`, in place. -/
def cellInsert {α : Type} (k : Nat) (v : α) : List (Nat × α) → List (Nat × α)
  | [] => [(k, v)]
  | (a, x) :: rest =>
    if k < a then (k, v) :: (a, x) :: rest
    else if a = k then (k, v) :: rest
    else (a, x) :: cellInsert k v rest

/-- List nothing for `k`. -/
def cellErase {α : Type} (k : Nat) : List (Nat × α) → List (Nat × α)
  | [] => []
  | (a, x) :: rest => if a = k then cellErase k rest else (a, x) :: cellErase k rest

/-- The numbers rise strictly. -/
abbrev cellsRising {α : Type} (m : List (Nat × α)) : Prop := m.Pairwise (fun x y => x.1 < y.1)

/-! ## OUTMEM (R80) -/

/-- What an unlisted byte of OUTMEM reads as (log 5). -/
def Memory.unlisted : Byte := 0

/-- One byte of OUTMEM. -/
def Memory.read (m : List Host.Cell) (a : Addr) : Byte := (cellLookup a.toNat m).getD Memory.unlisted

/-- One byte written; the canonical form lists no byte that reads so anyway. -/
def Memory.write (m : List Host.Cell) (a : Addr) (b : Byte) : List Host.Cell :=
  if b = Memory.unlisted then cellErase a.toNat m else cellInsert a.toNat b m

/-- The canonical form: addresses strictly rising, inside the 2^32 bytes of R80, no entry that an unlisted byte reads as. -/
abbrev Memory.wf (m : List Host.Cell) : Prop :=
  cellsRising m ∧ ∀ c ∈ m, c.1 < 2 ^ 32 ∧ c.2 ≠ Memory.unlisted

/-- `MemWrite` of bytes given lowest address first; the next address is taken mod 2^32 (R14, R83). -/
def Memory.writeBytes (m : List Host.Cell) (a : Addr) : List Byte → List Host.Cell
  | [] => m
  | b :: bs => Memory.writeBytes (Memory.write m a b) (a + 1) bs

/-- The bytes of a Sample, little-endian (R84). -/
def sampleBytes (s : Sample) : List Byte := [s.extractLsb' 0 8, s.extractLsb' 8 8]

/-- `MemWrite(addr, 2, s)`: the low byte at `addr`, the high byte at the next address (R84, R119). -/
def Memory.writeSample (m : List Host.Cell) (a : Addr) (s : Sample) : List Host.Cell :=
  Memory.writeBytes m a (sampleBytes s)

/-! ## The Burst buffer (R54) -/

/-- Entry `j`; one that no FRAME step has written since reset is unspecified (log 6). -/
def State.burstEntry (s : State) (j : Count) : Frame :=
  (cellLookup j.toNat s.burst).getD (Config.burstUnspecified s.resets j.toNat)

/-- Entry `j` written. -/
def State.setBurst (s : State) (j : Count) (d : Frame) : State :=
  { s with burst := cellInsert j.toNat d s.burst }

/-! ## Emission, BUSY, and the HOST's view -/

/-- Record what is emitted (log 3). -/
def State.emit (s : State) (o : Observation) : State := { s with trace := o :: s.trace }

/-- BUSY: a pull is in flight exactly when the engine is not idle (R36). -/
def State.busy (s : State) : Bool := decide (s.eng.state ≠ .idle)

/-- The values that a list of byte writes puts at `a`, oldest first. -/
def writtenAt (ws : List Host.Cell) (a : Addr) : List Byte := ws.filterMap fun c => if c.1 = a.toNat then some c.2 else none

/-- The byte a memory holds at `a` after a list of byte writes. -/
def lastAt (m : List Host.Cell) (ws : List Host.Cell) (a : Addr) : Byte :=
  ((writtenAt ws a).getLast?).getD (Memory.read m a)

/-- The byte writes a Sample is (R84). -/
def sampleWrites (a : Addr) (s : Sample) : List Host.Cell :=
  [(a.toNat, s.extractLsb' 0 8), ((a + 1).toNat, s.extractLsb' 8 8)]

/-- The block has written a Sample, which the HOST has not acquired. -/
def HostSide.blockWrites (h : HostSide) (a : Addr) (s : Sample) : HostSide :=
  { h with unacquired := h.unacquired ++ sampleWrites a s }

/-- The HOST is ordered after all the block has written to OUTMEM `m`: on a coherent platform its later reads see it, otherwise only
after its own maintenance (R97, R98, R104; log 7). -/
def HostSide.acquire (h : HostSide) (m : List Host.Cell) : HostSide :=
  if Config.hostSeesWrites then { view := m, acquired := m, unmaintained := [], unacquired := [] }
  else { view := h.view, acquired := m, unmaintained := h.unmaintained ++ h.unacquired, unacquired := [] }

/-- HOST cache maintenance: its reads are then ordered after what it has acquired (R98, R104; log 20). -/
def HostSide.maintain (h : HostSide) : HostSide := { h with view := h.acquired, unmaintained := [] }

/-- The HOST sees its own write, and nothing older at that address. -/
def HostSide.ownWrite (h : HostSide) (a : Addr) (b : Byte) : HostSide where
  view := Memory.write h.view a b
  acquired := Memory.write h.acquired a b
  unmaintained := h.unmaintained.filter (fun c => decide (c.1 ≠ a.toNat))
  unacquired := h.unacquired.filter (fun c => decide (c.1 ≠ a.toNat))

/-- The values a HOST read of the byte at `a` may return: the one in view, and each that the block has written there since (R98, R99:
a race admits the value before a pull and the value the pull writes). -/
def HostSide.admitted (h : HostSide) (a : Addr) : List Byte :=
  Memory.read h.view a :: writtenAt (h.unmaintained ++ h.unacquired) a

/-- HOST observes DONE = 1. -/
def State.acquire (s : State) : State := { s with host := s.host.acquire s.outmem }

/-- The acquire happens exactly when the HOST sees DONE = 1. -/
def State.observeDone (s : State) : State := if s.csr.done then s.acquire else s

/-- The HOST's maintenance, which changes no state of the block. -/
def State.maintain (s : State) : State := { s with host := s.host.maintain }

/-- An address lies in the output region of the pull (R82). -/
def State.inRegion (s : State) (a : Addr) : Bool := decide ((a - s.csr.bufBase).toNat < s.eng.len.toNat)

/-- The admitted value at `a` that a choice picks (log 8). -/
def State.hostByteBy (s : State) (choice : Nat) (a : Addr) : Byte :=
  (s.host.admitted a).getD (choice % (s.host.admitted a).length) (Memory.read s.host.view a)

/-- The byte a HOST read returns at `a`, as the `n`-th byte read: the choice is free (R99; log 8). -/
def State.hostByte (s : State) (n : Nat) (a : Addr) : Byte := s.hostByteBy (Config.raceChoice n) a

/-- The bytes of a HOST read of `n` bytes from `a` on (R14). -/
def State.hostBytes (s : State) (count : Nat) (a : Addr) : Nat → List Byte
  | 0 => []
  | n + 1 => s.hostByte count a :: State.hostBytes s (count + 1) (a + 1) n

/-- The value of bytes, lowest address first: the sum of `byte_j * 2^(8j)` (R14). -/
def leValue : List Byte → Nat
  | [] => 0
  | b :: bs => b.toNat + 256 * leValue bs

/-- `MemRead(addr, n)` by the HOST (R14). -/
def State.memRead (s : State) (a : Addr) (n : Nat) : State :=
  { s with
    trace := .hostData (leValue (s.hostBytes s.freeCount a n)) :: s.trace
    freeCount := s.freeCount + n }

/-- A byte HOST writes by its own path. -/
def State.memWrite (s : State) (a : Addr) (b : Byte) : State :=
  { s with outmem := Memory.write s.outmem a b, host := s.host.ownWrite a b }

/-! ## The ends of a pull -/

/-- `complete(r)` (R228): the result is held and DONE set, so `irq` rises; the engine is idle. The cursor, the length and the
configuration keep their values (R307). -/
def State.complete (s : State) (r : Result) : State :=
  { s with
    csr := { s.csr with result := r, done := true }
    eng := { s.eng with state := .idle } }

/-- ACK's effect (R174, R308): DONE, RESULT and PROTO_ERR are cleared, so `irq` falls. -/
def State.release (s : State) : State :=
  { s with csr := { s.csr with done := false, result := .none, protoErr := false } }

/-- The reset step (R340 to R342): the block's state takes the values of R56, PARAM is hardwired, the Burst buffer is left
unspecified; OUTMEM, the SOURCE's channel and the HOST are not touched (log 18). -/
def State.onReset (s : State) : State :=
  { s with
    csr := { Csr.reset with burstCap := s.csr.burstCap }
    eng := Engine.reset
    burst := []
    resets := s.resets + 1 }

end Sys2Proof.Machine
end

