-- ==== Sys2Proof/Machine/Beats.lean ====
section
/-! DEFINITION. Sys2Proof/Machine/Beats.lean: the meanings of the SRC rows (R222 to R225) and the backpressure rule (R223). A beat
whose step is not enabled is refused: nothing changes, and it stays at the head of the channel (log 4). -/

namespace Sys2Proof.Machine

open Sys2Proof

/-- A Frame beat is accepted in WAIT while fewer than `req` have been (R220, R223). -/
def State.acceptsFrame (s : State) : Bool := decide (s.eng.state = .wait ∧ s.eng.k.toNat < s.eng.req.toNat)

/-- An End beat is accepted in WAIT (R220, R223). -/
def State.acceptsEnd (s : State) : Bool := decide (s.eng.state = .wait)

/-- Whether the block accepts a beat now: by its KIND bit it is a Frame beat or an End beat (R116, R223). -/
def State.acceptsBeat (s : State) (b : Beat) : Bool := if b.getLsbD 33 then s.acceptsEnd else s.acceptsFrame

/-- FRAME: `burst[k] <- d`, `k <- k + 1` (R222). -/
def State.takeFrame (s : State) (d : Frame) : State :=
  let t := s.setBurst s.eng.k d
  { t with eng := { t.eng with k := t.eng.k + 1 } }

/-- END_OK: `i <- 0`, on to WRITE (R224). -/
def State.endRead (s : State) : State := { s with eng := { s.eng with i := 0, state := .write } }

/-- FRAME (R222, R223). -/
def execFrame (_st : BitVec 1) (d : Frame) (s : State) : Host.Outcome State Fault Refusal :=
  .next (if s.acceptsFrame then s.takeFrame d else s)

/-- END_OK (R224, R223). -/
def execEndOk (_data : BitVec 32) (s : State) : Host.Outcome State Fault Refusal :=
  .next (if s.acceptsEnd then s.endRead else s)

/-- END_FAULT: the pull ends with FAULT; the Frames of this read are discarded (R225, R223). -/
def execEndFault (_data : BitVec 32) (s : State) : Host.Outcome State Fault Refusal :=
  .next (if s.acceptsEnd then s.complete .fault else s)

end Sys2Proof.Machine
end

