-- ==== Sys2Proof/WellFormed.lean ====
section
/-! DEFINITION. Sys2Proof/WellFormed.lean: which terms of `Instr` are transactions of their row. The widths of the operands are
in their types; what is left to check is that an operand carried with its whole field lies in the row's range. -/

namespace Sys2Proof

/-- The opcode of a RESERVED_CMD row lies in the row's range (R114), and the slot of a row that covers the slots 8 to 15
lies there (R112, R206, R207). -/
def Instr.wf : Instr → Bool
  | .nop _ _ => true
  | .pull _ _ => true
  | .ack _ _ => true
  | .reservedCmd3 _ _ => true
  | .reservedCmd4to7 _ _ op => decide (4 ≤ op.toNat ∧ op.toNat ≤ 7)
  | .reservedCmd8to15 _ _ op => decide (8 ≤ op.toNat)
  | .rdCtrl _ => true
  | .rdStatus _ => true
  | .rdBufBase _ => true
  | .rdGain _ => true
  | .rdClamp _ => true
  | .rdParam _ => true
  | .rdReqLen _ => true
  | .rdRsv1C _ => true
  | .rdRsv20to3F slot _ => decide (8 ≤ slot.toNat)
  | .wrCtrl _ _ => true
  | .wrStatus _ _ => true
  | .wrBufBase _ _ => true
  | .wrGain _ _ => true
  | .wrClamp _ _ => true
  | .wrParam _ _ => true
  | .wrReqLen _ _ => true
  | .wrRsv5C _ _ => true
  | .wrRsv60to7F slot _ _ => decide (8 ≤ slot.toNat)
  | .frame _ _ => true
  | .endOk _ => true
  | .endFault _ => true

end Sys2Proof
end

