-- ==== Sys2Proof/Decode.lean ====
section
/-! DEFINITION. Sys2Proof/Decode.lean: the decoding procedure of R123, total on every word of every interface, and the encoder,
both from the layouts of R111 to R116. -/

namespace Sys2Proof

/-! ## Decoding -/

/-- The slot OFF[5:2] of a descriptor (R111, R112). -/
def slotOf (t : Descriptor) : BitVec 4 := t.extractLsb' 2 4

/-- OFF[1:0], which no access looks at (R81). -/
def laneOf (t : Descriptor) : BitVec 2 := t.extractLsb' 0 2

/-- WE, bit 6 of a descriptor (R111). -/
def isWrite (t : Descriptor) : Bool := t.getLsbD 6

/-- The OP field of a command word (R113). -/
def opOf (w : Word) : BitVec 4 := w.extractLsb' 0 4

/-- The RSV field of a command word (R113). -/
def rsvOf (w : Word) : BitVec 12 := w.extractLsb' 4 12

/-- The LEN field of a command word (R113, R115). -/
def lenOf (w : Word) : BitVec 16 := w.extractLsb' 16 16

/-- A CSR read (R112). -/
def decodeRead (slot : BitVec 4) (lane : BitVec 2) : Instr :=
  match slot.toNat with
  | 0 => .rdCtrl lane
  | 1 => .rdStatus lane
  | 2 => .rdBufBase lane
  | 3 => .rdGain lane
  | 4 => .rdClamp lane
  | 5 => .rdParam lane
  | 6 => .rdReqLen lane
  | 7 => .rdRsv1C lane
  | _ => .rdRsv20to3F slot lane

/-- A CSR write (R112). -/
def decodeWrite (slot : BitVec 4) (lane : BitVec 2) (w : Word) : Instr :=
  match slot.toNat with
  | 0 => .wrCtrl lane w
  | 1 => .wrStatus lane w
  | 2 => .wrBufBase lane w
  | 3 => .wrGain lane w
  | 4 => .wrClamp lane w
  | 5 => .wrParam lane w
  | 6 => .wrReqLen lane w
  | 7 => .wrRsv5C lane w
  | _ => .wrRsv60to7F slot lane w

/-- The BUS decoder (R111, R112). A CTRL write stays a CTRL write here; its meaning decodes the command (log 13). -/
def decodeBus (t : Descriptor) (wdata : Word) : Instr :=
  if isWrite t then decodeWrite (slotOf t) (laneOf t) wdata
  else decodeRead (slotOf t) (laneOf t)

/-- The command decoder (R114). -/
def decodeCmd (w : Word) : Instr :=
  match (opOf w).toNat with
  | 0 => .nop (lenOf w) (rsvOf w)
  | 1 => .pull (lenOf w) (rsvOf w)
  | 2 => .ack (lenOf w) (rsvOf w)
  | 3 => .reservedCmd3 (lenOf w) (rsvOf w)
  | 4 | 5 | 6 | 7 => .reservedCmd4to7 (lenOf w) (rsvOf w) (opOf w)
  | _ => .reservedCmd8to15 (lenOf w) (rsvOf w) (opOf w)

/-- The beat decoder (R116, R123). -/
def decodeSrc (b : Beat) : Instr :=
  if b.getLsbD 33 = false then .frame (b.extractLsb' 32 1) (b.extractLsb' 0 32)
  else if b.getLsbD 32 = false then .endOk (b.extractLsb' 0 32)
  else .endFault (b.extractLsb' 0 32)

/-- Every raw transaction decodes to exactly one instruction (R123). -/
def decode : Raw → Instr
  | .bus t wdata => decodeBus t wdata
  | .cmd w => decodeCmd w
  | .src b => decodeSrc b

/-- `decode_bus` of R123, which goes on to decode the command of a CTRL write. -/
def decodeBusToCommand (t : Descriptor) (wdata : Word) : Instr :=
  if isWrite t && slotOf t == 0 then decodeCmd wdata else decodeBus t wdata

/-! ## Transactions as numbers and as bytes (log 15)

Bit 0 is the least significant bit of the first word, as spec/opcode_table.json numbers a row's bits. A BUS transaction is its
descriptor in one byte (bit 7 clear) and then its write data; a command is 32 bits; a beat is 34 bits. -/

/-- How many bytes a transaction of an interface takes. -/
def Port.bytes : Port → Nat
  | .bus => 5
  | .cmd => 4
  | .src => 5

/-- The raw transaction a number stands for, or why it stands for none. -/
def rawOfNat (p : Port) (v : Nat) : Except DecodeError Raw :=
  match p with
  | .bus =>
    if v % 256 < 128 ∧ v / 256 < 2 ^ 32 then .ok (.bus (BitVec.ofNat 7 (v % 256)) (BitVec.ofNat 32 (v / 256)))
    else .error .bitsAboveFormat
  | .cmd => if v < 2 ^ 32 then .ok (.cmd (BitVec.ofNat 32 v)) else .error .bitsAboveFormat
  | .src => if v < 2 ^ 34 then .ok (.src (BitVec.ofNat 34 v)) else .error .bitsAboveFormat

/-- The decoder on any number. -/
def decodeNat (p : Port) (v : Nat) : Except DecodeError Instr :=
  match rawOfNat p v with
  | .ok r => .ok (decode r)
  | .error e => .error e

/-- The number of a byte string, first byte least significant. -/
def natOfBytes : List Byte → Nat
  | [] => 0
  | b :: bs => b.toNat + 256 * natOfBytes bs

/-- The decoder on any byte string. -/
def decodeBytes (p : Port) (bs : List Byte) : Except DecodeError Instr :=
  if bs.length = p.bytes then decodeNat p (natOfBytes bs) else .error .wrongLength

/-- The interface of an opcode-table row, from the number of bits the table gives it: 8 for BUS descriptors, 32 for command
words, 40 (34 bits in whole bytes) for beats. -/
def portOfWidth (nbits : Nat) : Port :=
  if nbits ≤ 8 then .bus else if nbits ≤ 32 then .cmd else .src

/-- The instruction the decoder reads from an opcode-table word. -/
def decodeTableWord (nbits w : Nat) : Option Instr :=
  match decodeNat (portOfWidth nbits) w with
  | .ok i => some i
  | .error _ => none

/-! ## Encoding -/

/-- A descriptor (R111). -/
def descriptor (we : Bool) (slot : BitVec 4) (lane : BitVec 2) : Descriptor := BitVec.ofBool we ++ slot ++ lane

/-- A command word (R113): `LLLLLLLLLLLLLLLL xxxxxxxxxxxx OOOO`. -/
def commandWord (len : BitVec 16) (rsv : BitVec 12) (op : BitVec 4) : Word := len ++ rsv ++ op

/-- A beat (R116). -/
def beat (kind st : BitVec 1) (data : BitVec 32) : Beat := kind ++ st ++ data

/-- The word of a well-formed instruction. -/
def encode : Instr → Raw
  | .nop len rsv => .cmd (commandWord len rsv 0)
  | .pull len rsv => .cmd (commandWord len rsv 1)
  | .ack len rsv => .cmd (commandWord len rsv 2)
  | .reservedCmd3 len rsv => .cmd (commandWord len rsv 3)
  | .reservedCmd4to7 len rsv op => .cmd (commandWord len rsv op)
  | .reservedCmd8to15 len rsv op => .cmd (commandWord len rsv op)
  | .rdCtrl lane => .bus (descriptor false 0 lane) 0
  | .rdStatus lane => .bus (descriptor false 1 lane) 0
  | .rdBufBase lane => .bus (descriptor false 2 lane) 0
  | .rdGain lane => .bus (descriptor false 3 lane) 0
  | .rdClamp lane => .bus (descriptor false 4 lane) 0
  | .rdParam lane => .bus (descriptor false 5 lane) 0
  | .rdReqLen lane => .bus (descriptor false 6 lane) 0
  | .rdRsv1C lane => .bus (descriptor false 7 lane) 0
  | .rdRsv20to3F slot lane => .bus (descriptor false slot lane) 0
  | .wrCtrl lane w => .bus (descriptor true 0 lane) w
  | .wrStatus lane w => .bus (descriptor true 1 lane) w
  | .wrBufBase lane w => .bus (descriptor true 2 lane) w
  | .wrGain lane w => .bus (descriptor true 3 lane) w
  | .wrClamp lane w => .bus (descriptor true 4 lane) w
  | .wrParam lane w => .bus (descriptor true 5 lane) w
  | .wrReqLen lane w => .bus (descriptor true 6 lane) w
  | .wrRsv5C lane w => .bus (descriptor true 7 lane) w
  | .wrRsv60to7F slot lane w => .bus (descriptor true slot lane) w
  | .frame st d => .src (beat 0 st d)
  | .endOk data => .src (beat 1 0 data)
  | .endFault data => .src (beat 1 1 data)

/-- The beat `Frame(d)` (R126: ST written 0). -/
def frameBeat (d : Frame) : Beat := beat 0 0 d

/-- The beat `End(Ok)` (R116). -/
def endOkBeat : Beat := beat 1 0 0

/-- The beat `End(Fault)` (R116). -/
def endFaultBeat : Beat := beat 1 1 0

/-- The beats of `src: [d0, d1, ...] ok` (R126). -/
def answerOk (ds : List Frame) : List Beat := ds.map frameBeat ++ [endOkBeat]

/-- The beats of `src: [d0, d1, ...] fault` (R126). -/
def answerFault (ds : List Frame) : List Beat := ds.map frameBeat ++ [endFaultBeat]

/-- The BUS transaction a pseudo-instruction stands for (R125). -/
def Pseudo.expand : Pseudo → Descriptor × Word
  | .nop => (0x40, 0x00000000)
  | .pull n => (0x40, n ++ 0x0001#16)
  | .ack => (0x40, 0x00000002)
  | .setbase a => (0x48, a)
  | .setgain g sh => (0x4C, 0#12 ++ sh ++ g)
  | .setclamp lo hi => (0x50, hi ++ lo)

/-! ## The opcode table -/

/-- The row of spec/opcode_table.json an instruction belongs to. -/
def Instr.row : Instr → Row
  | .nop _ _ => ⟨.cmd, 0x00000000, 0x0000000F⟩
  | .pull _ _ => ⟨.cmd, 0x00000001, 0x0000000F⟩
  | .ack _ _ => ⟨.cmd, 0x00000002, 0x0000000F⟩
  | .reservedCmd3 _ _ => ⟨.cmd, 0x00000003, 0x0000000F⟩
  | .reservedCmd4to7 _ _ _ => ⟨.cmd, 0x00000004, 0x0000000C⟩
  | .reservedCmd8to15 _ _ _ => ⟨.cmd, 0x00000008, 0x00000008⟩
  | .rdCtrl _ => ⟨.bus, 0x00, 0x7C⟩
  | .rdStatus _ => ⟨.bus, 0x04, 0x7C⟩
  | .rdBufBase _ => ⟨.bus, 0x08, 0x7C⟩
  | .rdGain _ => ⟨.bus, 0x0C, 0x7C⟩
  | .rdClamp _ => ⟨.bus, 0x10, 0x7C⟩
  | .rdParam _ => ⟨.bus, 0x14, 0x7C⟩
  | .rdReqLen _ => ⟨.bus, 0x18, 0x7C⟩
  | .rdRsv1C _ => ⟨.bus, 0x1C, 0x7C⟩
  | .rdRsv20to3F _ _ => ⟨.bus, 0x20, 0x60⟩
  | .wrCtrl _ _ => ⟨.bus, 0x40, 0x7C⟩
  | .wrStatus _ _ => ⟨.bus, 0x44, 0x7C⟩
  | .wrBufBase _ _ => ⟨.bus, 0x48, 0x7C⟩
  | .wrGain _ _ => ⟨.bus, 0x4C, 0x7C⟩
  | .wrClamp _ _ => ⟨.bus, 0x50, 0x7C⟩
  | .wrParam _ _ => ⟨.bus, 0x54, 0x7C⟩
  | .wrReqLen _ _ => ⟨.bus, 0x58, 0x7C⟩
  | .wrRsv5C _ _ => ⟨.bus, 0x5C, 0x7C⟩
  | .wrRsv60to7F _ _ _ => ⟨.bus, 0x60, 0x60⟩
  | .frame _ _ => ⟨.src, 0x000000000, 0x200000000⟩
  | .endOk _ => ⟨.src, 0x200000000, 0x300000000⟩
  | .endFault _ => ⟨.src, 0x300000000, 0x300000000⟩

/-- All rows, in the table's order. -/
def opcodeTable : List Row := [
  ⟨.cmd, 0x00000000, 0x0000000F⟩, ⟨.cmd, 0x00000001, 0x0000000F⟩, ⟨.cmd, 0x00000002, 0x0000000F⟩,
  ⟨.cmd, 0x00000003, 0x0000000F⟩, ⟨.cmd, 0x00000004, 0x0000000C⟩, ⟨.cmd, 0x00000008, 0x00000008⟩,
  ⟨.bus, 0x00, 0x7C⟩, ⟨.bus, 0x04, 0x7C⟩, ⟨.bus, 0x08, 0x7C⟩, ⟨.bus, 0x0C, 0x7C⟩, ⟨.bus, 0x10, 0x7C⟩,
  ⟨.bus, 0x14, 0x7C⟩, ⟨.bus, 0x18, 0x7C⟩, ⟨.bus, 0x40, 0x7C⟩, ⟨.bus, 0x44, 0x7C⟩, ⟨.bus, 0x48, 0x7C⟩,
  ⟨.bus, 0x4C, 0x7C⟩, ⟨.bus, 0x50, 0x7C⟩, ⟨.bus, 0x54, 0x7C⟩, ⟨.bus, 0x58, 0x7C⟩, ⟨.bus, 0x1C, 0x7C⟩,
  ⟨.bus, 0x20, 0x60⟩, ⟨.bus, 0x5C, 0x7C⟩, ⟨.bus, 0x60, 0x60⟩,
  ⟨.src, 0x000000000, 0x200000000⟩, ⟨.src, 0x200000000, 0x300000000⟩, ⟨.src, 0x300000000, 0x300000000⟩]

/-- The number a row's match and mask are read over: the descriptor of a BUS transaction, a command word, a beat. -/
def Raw.number : Raw → Nat
  | .bus t _ => t.toNat
  | .cmd w => w.toNat
  | .src b => b.toNat

/-- The interface of a raw transaction. -/
def Raw.port : Raw → Port
  | .bus _ _ => .bus
  | .cmd _ => .cmd
  | .src _ => .src

/-- A raw transaction lies in a row: its number, under the row's mask, is the row's match. -/
def Row.covers (row : Row) (r : Raw) : Bool := row.port == r.port && (r.number &&& row.mask == row.pattern)

end Sys2Proof
end

