-- ==== Sys2Proof/Machine/Operands.lean ====
section
/-! DEFINITION. Sys2Proof/Machine/Operands.lean: how operands are assembled (R115, R117, R120) and the words the configuration
registers read as. -/

namespace Sys2Proof.Machine

open Sys2Proof

/-! ## Operands of CONVERT (R120, R151) -/

/-- The signed value of a Frame: its upper 16 bits, two's complement (R117, R151). -/
def frameValue (f : Frame) : Int := (f.extractLsb' 16 16).toInt

/-- The gain multiplier `g`, 0 to 65535 (R120). -/
def Csr.multiplier (c : Csr) : Int := c.gain.toNat

/-- The number of fraction bits `sh`, 0 to 15 (R120). -/
def Csr.fractionBits (c : Csr) : Nat := c.shift.toNat

/-- The lower bound `lo` (R120). -/
def Csr.lowerBound (c : Csr) : Int := c.clampLo.toInt

/-- The upper bound `hi` (R120). -/
def Csr.upperBound (c : Csr) : Int := c.clampHi.toInt

/-! ## Operands of the engine -/

/-- `remaining_samples = (len - produced) / 2` (R221). -/
def Engine.remaining (e : Engine) : Nat := (e.len.toNat - e.produced.toNat) / 2

/-- The Frame count of the next read: the remaining Samples, at most the Burst capacity (R221). -/
def State.nextRequest (s : State) : Count := BitVec.ofNat 16 (min s.eng.remaining s.csr.burstCap.toNat)

/-- The address of the Sample at the cursor: `(BUF_BASE + produced) mod 2^32` (R83). -/
def State.cursorAddr (s : State) : Addr := s.csr.bufBase + s.eng.produced.setWidth 32

/-- The length PULL takes: even and positive (R172). -/
def legalLength (len : Count) : Bool := decide (len.toNat ≠ 0 ∧ len.toNat % 2 = 0)

/-! ## Register words -/

/-- GAIN as it reads: bits 31:20 are 0 (R198). -/
def Csr.gainWord (c : Csr) : Word := 0#12 ++ c.shift ++ c.gain

/-- CLAMP as it reads (R200). -/
def Csr.clampWord (c : Csr) : Word := c.clampHi ++ c.clampLo

/-- PARAM as it reads (R202). -/
def Csr.paramWord (c : Csr) : Word := 0#16 ++ c.burstCap

/-- REQ_LEN as it reads (R204). -/
def State.reqLenWord (s : State) : Word := 0#16 ++ s.eng.len

/-- A BUF_BASE write (R197). -/
def State.setBufBase (s : State) (w : Word) : State := { s with csr := { s.csr with bufBase := w } }

/-- A GAIN write: bits 31:20 are ignored (R199). -/
def State.setGain (s : State) (w : Word) : State :=
  { s with csr := { s.csr with gain := w.extractLsb' 0 16, shift := w.extractLsb' 16 4 } }

/-- A CLAMP write (R201). -/
def State.setClamp (s : State) (w : Word) : State :=
  { s with csr := { s.csr with clampLo := w.extractLsb' 0 16, clampHi := w.extractLsb' 16 16 } }

end Sys2Proof.Machine
end

