-- ==== Sys2Proof/Machine/Flags.lean ====
section
/-! DEFINITION. Sys2Proof/Machine/Flags.lean: the STATUS flags (R35 to R40, R47), the word they read as, and `irq`. -/

namespace Sys2Proof.Machine

open Sys2Proof

/-- The code of a result (R38). -/
def Result.code : Result → BitVec 2
  | .none => 0
  | .ok => 1
  | .fault => 2
  | .rejected => 3

/-- STATUS as it reads: PRODUCED, eleven zeros, PROTO_ERR, RESULT, DONE, BUSY (R35, R194). -/
def State.statusWord (s : State) : Word :=
  s.eng.produced ++ 0#11 ++ BitVec.ofBool s.csr.protoErr ++ s.csr.result.code ++ BitVec.ofBool s.csr.done
    ++ BitVec.ofBool s.busy

/-- The interrupt output: the level of STATUS.DONE (R55). -/
def State.irq (s : State) : Bool := s.csr.done

/-- `csr.STATUS.PROTO_ERR <- 1` (R39). -/
def State.flagProtocolError (s : State) : State := { s with csr := { s.csr with protoErr := true } }

/-- A non-NOP command or a configuration write: dropped with PROTO_ERR while BUSY is 1, else it has its effect (R176, R197,
R199, R201). -/
def State.whenIdle (s : State) (effect : State → State) : State := if s.busy then s.flagProtocolError else effect s

/-- A PULL that passed the BUSY check (R172): the length is recorded and the cursor cleared; a length of 0 or an odd one is
rejected at once, any other starts the pull. -/
def State.startPull (len : Count) (s : State) : State :=
  if legalLength len then
    { s with
      csr := { s.csr with result := .none, done := false }
      eng := { s.eng with len := len, produced := 0, state := .issue } }
  else
    { s with
      csr := { s.csr with result := .rejected, done := true }
      eng := { s.eng with len := len, produced := 0 } }

end Sys2Proof.Machine
end

