-- ==== Sys2Proof/Machine/Commands.lean ====
section
/-! DEFINITION. Sys2Proof/Machine/Commands.lean: the meanings of the CMD rows (41_commands.md). The ignored bits of a command
word are arguments no meaning reads. -/

namespace Sys2Proof.Machine

open Sys2Proof

/-- NOP: nothing changes, even while BUSY is 1 (R171). -/
def execNop (_len : BitVec 16) (_rsv : BitVec 12) (s : State) : Host.Outcome State Fault Refusal := .next s

/-- PULL (R170, R172, R176). -/
def execPull (len : BitVec 16) (_rsv : BitVec 12) (s : State) : Host.Outcome State Fault Refusal :=
  .next (s.whenIdle (State.startPull len))

/-- ACK (R170, R174, R176). -/
def execAck (_len : BitVec 16) (_rsv : BitVec 12) (s : State) : Host.Outcome State Fault Refusal :=
  .next (s.whenIdle State.release)

/-- A reserved opcode: PROTO_ERR, idle or busy (R175). -/
def reservedCommand (s : State) : Host.Outcome State Fault Refusal := .next (s.whenIdle State.flagProtocolError)

/-- OP 3 (R175). -/
def execReservedCmd3 (_len : BitVec 16) (_rsv : BitVec 12) (s : State) : Host.Outcome State Fault Refusal :=
  reservedCommand s

/-- OP 4 to 7 (R175). -/
def execReservedCmd4to7 (_len : BitVec 16) (_rsv : BitVec 12) (_op : BitVec 4) (s : State) :
    Host.Outcome State Fault Refusal :=
  reservedCommand s

/-- OP 8 to 15 (R175). -/
def execReservedCmd8to15 (_len : BitVec 16) (_rsv : BitVec 12) (_op : BitVec 4) (s : State) :
    Host.Outcome State Fault Refusal :=
  reservedCommand s

/-- The command dispatch of a CTRL write (R170): the opcode selects the command. -/
def runCommandWord (w : Word) (s : State) : Host.Outcome State Fault Refusal :=
  match (opOf w).toNat with
  | 0 => execNop (lenOf w) (rsvOf w) s
  | 1 => execPull (lenOf w) (rsvOf w) s
  | 2 => execAck (lenOf w) (rsvOf w) s
  | 3 => execReservedCmd3 (lenOf w) (rsvOf w) s
  | 4 | 5 | 6 | 7 => execReservedCmd4to7 (lenOf w) (rsvOf w) (opOf w) s
  | _ => execReservedCmd8to15 (lenOf w) (rsvOf w) (opOf w) s

end Sys2Proof.Machine
end

