-- ==== Sys2Proof/Machine/CsrAccess.lean ====
section
/-! DEFINITION. Sys2Proof/Machine/CsrAccess.lean: the meanings of the BUS rows (42_csr_access.md). A read emits RDATA; OFF[1:0] is an
argument no meaning reads (R81). -/

namespace Sys2Proof.Machine

open Sys2Proof

/-- A read returns its value and changes no state of the block (R190). -/
def readReturns (v : Word) (s : State) : Host.Outcome State Fault Refusal := .next (s.emit (.rdata v))

/-! ## Reads -/

/-- RD CTRL reads 0 (R192). -/
def execRdCtrl (_lane : BitVec 2) (s : State) : Host.Outcome State Fault Refusal := readReturns 0 s

/-- RD STATUS (R194). A HOST that so reads DONE = 1 is ordered after the block's writes (R97, R98; log 7): that part is the
HOST's, no state of the block changes. -/
def execRdStatus (_lane : BitVec 2) (s : State) : Host.Outcome State Fault Refusal :=
  readReturns s.statusWord s.observeDone

/-- RD BUF_BASE (R196). -/
def execRdBufBase (_lane : BitVec 2) (s : State) : Host.Outcome State Fault Refusal := readReturns s.csr.bufBase s

/-- RD GAIN (R198). -/
def execRdGain (_lane : BitVec 2) (s : State) : Host.Outcome State Fault Refusal := readReturns s.csr.gainWord s

/-- RD CLAMP (R200). -/
def execRdClamp (_lane : BitVec 2) (s : State) : Host.Outcome State Fault Refusal := readReturns s.csr.clampWord s

/-- RD PARAM (R202). -/
def execRdParam (_lane : BitVec 2) (s : State) : Host.Outcome State Fault Refusal := readReturns s.csr.paramWord s

/-- RD REQ_LEN (R204). -/
def execRdReqLen (_lane : BitVec 2) (s : State) : Host.Outcome State Fault Refusal := readReturns s.reqLenWord s

/-- RD reserved, slot 7 (R206). -/
def execRdRsv1C (_lane : BitVec 2) (s : State) : Host.Outcome State Fault Refusal := readReturns 0 s

/-- RD reserved, slots 8 to 15 (R206). -/
def execRdRsv20to3F (_slot : BitVec 4) (_lane : BitVec 2) (s : State) : Host.Outcome State Fault Refusal :=
  readReturns 0 s

/-! ## Writes -/

/-- WR CTRL executes its data as a command (R193). -/
def execWrCtrl (_lane : BitVec 2) (w : Word) (s : State) : Host.Outcome State Fault Refusal := runCommandWord w s

/-- WR STATUS is ignored (R195). -/
def execWrStatus (_lane : BitVec 2) (_w : Word) (s : State) : Host.Outcome State Fault Refusal := .next s

/-- WR BUF_BASE (R197). -/
def execWrBufBase (_lane : BitVec 2) (w : Word) (s : State) : Host.Outcome State Fault Refusal :=
  .next (s.whenIdle (State.setBufBase · w))

/-- WR GAIN (R199). -/
def execWrGain (_lane : BitVec 2) (w : Word) (s : State) : Host.Outcome State Fault Refusal :=
  .next (s.whenIdle (State.setGain · w))

/-- WR CLAMP (R201). -/
def execWrClamp (_lane : BitVec 2) (w : Word) (s : State) : Host.Outcome State Fault Refusal :=
  .next (s.whenIdle (State.setClamp · w))

/-- WR PARAM is ignored (R203). -/
def execWrParam (_lane : BitVec 2) (_w : Word) (s : State) : Host.Outcome State Fault Refusal := .next s

/-- WR REQ_LEN is ignored (R205). -/
def execWrReqLen (_lane : BitVec 2) (_w : Word) (s : State) : Host.Outcome State Fault Refusal := .next s

/-- WR reserved, slot 7, is ignored (R207). -/
def execWrRsv5C (_lane : BitVec 2) (_w : Word) (s : State) : Host.Outcome State Fault Refusal := .next s

/-- WR reserved, slots 8 to 15, is ignored (R207). -/
def execWrRsv60to7F (_slot : BitVec 4) (_lane : BitVec 2) (_w : Word) (s : State) :
    Host.Outcome State Fault Refusal := .next s

end Sys2Proof.Machine
end

