-- ==== Sys2Proof/Machine/Dispatch.lean ====
section
/-! DEFINITION. Sys2Proof/Machine/Dispatch.lean: one arm for each constructor of `Instr`. -/

namespace Sys2Proof.Machine

open Sys2Proof

def exec (i : Instr) (s : State) : Host.Outcome State Fault Refusal :=
  match i with
  | .nop len rsv => Sys2Proof.Machine.execNop len rsv s
  | .pull len rsv => Sys2Proof.Machine.execPull len rsv s
  | .ack len rsv => Sys2Proof.Machine.execAck len rsv s
  | .reservedCmd3 len rsv => Sys2Proof.Machine.execReservedCmd3 len rsv s
  | .reservedCmd4to7 len rsv op => Sys2Proof.Machine.execReservedCmd4to7 len rsv op s
  | .reservedCmd8to15 len rsv op => Sys2Proof.Machine.execReservedCmd8to15 len rsv op s
  | .rdCtrl lane => Sys2Proof.Machine.execRdCtrl lane s
  | .rdStatus lane => Sys2Proof.Machine.execRdStatus lane s
  | .rdBufBase lane => Sys2Proof.Machine.execRdBufBase lane s
  | .rdGain lane => Sys2Proof.Machine.execRdGain lane s
  | .rdClamp lane => Sys2Proof.Machine.execRdClamp lane s
  | .rdParam lane => Sys2Proof.Machine.execRdParam lane s
  | .rdReqLen lane => Sys2Proof.Machine.execRdReqLen lane s
  | .rdRsv1C lane => Sys2Proof.Machine.execRdRsv1C lane s
  | .rdRsv20to3F slot lane => Sys2Proof.Machine.execRdRsv20to3F slot lane s
  | .wrCtrl lane w => Sys2Proof.Machine.execWrCtrl lane w s
  | .wrStatus lane w => Sys2Proof.Machine.execWrStatus lane w s
  | .wrBufBase lane w => Sys2Proof.Machine.execWrBufBase lane w s
  | .wrGain lane w => Sys2Proof.Machine.execWrGain lane w s
  | .wrClamp lane w => Sys2Proof.Machine.execWrClamp lane w s
  | .wrParam lane w => Sys2Proof.Machine.execWrParam lane w s
  | .wrReqLen lane w => Sys2Proof.Machine.execWrReqLen lane w s
  | .wrRsv5C lane w => Sys2Proof.Machine.execWrRsv5C lane w s
  | .wrRsv60to7F slot lane w => Sys2Proof.Machine.execWrRsv60to7F slot lane w s
  | .frame st d => Sys2Proof.Machine.execFrame st d s
  | .endOk data => Sys2Proof.Machine.execEndOk data s
  | .endFault data => Sys2Proof.Machine.execEndFault data s

end Sys2Proof.Machine
end

