-- ==== Sys2Proof/Machine/Convert.lean ====
section
/-! DEFINITION. Sys2Proof/Machine/Convert.lean: CONVERT (R150 to R159), a pure function of a Frame and of GAIN and CLAMP (R157). -/

namespace Sys2Proof.Machine

open Sys2Proof

/-- `p = v * g`, exact (R152). -/
def Csr.product (c : Csr) (f : Frame) : Int := frameValue f * c.multiplier

/-- `q = asr(p, sh) = floor(p / 2^sh)` (R153); the quotient of integers by a positive number rounds down. -/
def Csr.scaled (c : Csr) (f : Frame) : Int := c.product f / 2 ^ c.fractionBits

/-- `s = min(max(q, lo), hi)` (R154). -/
def Csr.saturated (c : Csr) (f : Frame) : Int := min (max (c.scaled f) c.lowerBound) c.upperBound

/-- `CONVERT(frame) = bits16(s)` (R150). -/
def Csr.convert (c : Csr) (f : Frame) : Sample := BitVec.ofInt 16 (c.saturated f)

end Sys2Proof.Machine
end

