-- ==== Sys2Proof/Machine/PullEngine.lean ====
section
/-! DEFINITION. Sys2Proof/Machine/PullEngine.lean: the ENGINE's own steps, ISSUE, WRITE_SAMPLE and WRITE_END (R220, R221, R226, R227).
They have no encoding (R110). -/

namespace Sys2Proof.Machine

open Sys2Proof

/-- ISSUE: the loop test, then one read request (R221). -/
def State.issue (s : State) : State :=
  if s.eng.produced = s.eng.len then s.complete .ok
  else
    { s with
      eng := { s.eng with req := s.nextRequest, k := 0, state := .wait }
      trace := .req s.nextRequest :: s.trace }

/-- WRITE_SAMPLE: one received Frame converted and written at the cursor (R226). -/
def State.writeSample (s : State) : State :=
  { s with
    outmem := Memory.writeSample s.outmem s.cursorAddr (s.csr.convert (s.burstEntry s.eng.i))
    host := s.host.blockWrites s.cursorAddr (s.csr.convert (s.burstEntry s.eng.i))
    eng := { s.eng with produced := s.eng.produced + 2, i := s.eng.i + 1 }
    trace := .memwr s.cursorAddr (s.csr.convert (s.burstEntry s.eng.i)) :: s.trace }

/-- WRITE_END: the burst is written, back to the loop test (R227). -/
def State.writeEnd (s : State) : State := { s with eng := { s.eng with state := .issue } }

/-- The ENGINE's turn (R220): its enabled step, or none; `memAccepts` says whether OUTMEM accepts a write now (R93). -/
def State.engineStep (s : State) (memAccepts : Bool) : State :=
  match s.eng.state with
  | .idle => s
  | .issue => s.issue
  | .wait => s
  | .write =>
    if s.eng.i = s.eng.k then s.writeEnd
    else if s.eng.i.toNat < s.eng.k.toNat ∧ memAccepts = true then s.writeSample
    else s

end Sys2Proof.Machine
end

