-- ==== Sys2Proof/Machine/Agents.lean ====
section
/-! DEFINITION. Sys2Proof/Machine/Agents.lean: the turn of each agent (R7): fetching and decoding the HOST's transaction or the
channel's head beat, the ENGINE's step, reset, and the HOST's own accesses to OUTMEM. -/

namespace Sys2Proof.Machine

open Sys2Proof

/-- The HOST's BUS transaction, decoded and executed (R6, R123). -/
def hostTurn (t : Descriptor) (wdata : Word) (s : State) : Host.Outcome State Fault Refusal :=
  exec (decodeBus t wdata) s

/-- The head beat of the channel is presented (R223): accepted, it leaves the channel; refused, it stays. -/
def sourceTurn (s : State) : Host.Outcome State Fault Refusal :=
  match s.channel with
  | [] => .next s
  | b :: rest =>
    if s.acceptsBeat b then exec (decodeSrc b) { s with channel := rest } else exec (decodeSrc b) s

/-- The HOST writes a byte of OUTMEM: inside the region of a pull in flight it breaks its contract (R100; log 9). -/
def memWriteTurn (a : Addr) (b : Byte) (s : State) : Host.Outcome State Fault Refusal :=
  if s.busy && s.inRegion a then .fault .hostWroteRegion else .next (s.memWrite a b)

/-- The HOST observes `irq`; seeing it high is an ordering point like reading DONE = 1 (R97). -/
def watchIrqTurn (s : State) : Host.Outcome State Fault Refusal := .next (s.observeDone.emit (.irq s.irq))

/-- The step an event of the schedule stands for (R7). -/
def runEvent (e : Event) (s : State) : Host.Outcome State Fault Refusal :=
  match e with
  | .host t wdata => hostTurn t wdata s
  | .offer b => .next { s with channel := s.channel ++ [b] }
  | .source => sourceTurn s
  | .engine memAccepts => .next (s.engineStep memAccepts)
  | .reset => .next s.onReset
  | .sourceReset => .next { s with channel := [] }
  | .memRead a n => .next (s.memRead a n)
  | .memWrite a b => memWriteTurn a b s
  | .watchIrq => watchIrqTurn s
  | .maintain => .next s.maintain

/-- The next step: the head of the schedule; with nothing scheduled, no agent acts (log 2). -/
def nextTurn (s : State) : Host.Outcome State Fault Refusal :=
  match s.schedule with
  | [] => .next s
  | e :: rest => runEvent e { s with schedule := rest }

/-- The engine waiting for the first Frame of `pull 2`: where a beat finds it when its row is tried on its own (log 14). -/
def State.awaitFrame (s : State) : State :=
  if s.acceptsFrame then s
  else
    { s with
      csr := { s.csr with done := false, result := .none }
      eng := { s.eng with state := .wait, len := 2, produced := 0, req := 1, k := 0 } }

/-- The raw transaction of an opcode-table word, stored where `nextTurn` takes its next one (log 14, log 15). -/
def State.placeWord (s : State) (nbits w : Nat) : State :=
  match portOfWidth nbits with
  | .bus => { s with schedule := .host (BitVec.ofNat 7 (w % 256)) (BitVec.ofNat 32 (w / 256)) :: s.schedule }
  | .cmd => { s with schedule := .host 0x40 (BitVec.ofNat 32 w) :: s.schedule }
  | .src =>
    let t := s.awaitFrame
    { t with channel := BitVec.ofNat 34 w :: t.channel, schedule := .source :: t.schedule }

end Sys2Proof.Machine
end

