-- ==== Sys2Proof/Machine/Step.lean ====
section
/-! DEFINITION. Sys2Proof/Machine/Step.lean: one step of the machine. -/

namespace Sys2Proof.Machine

open Sys2Proof

/-- One atomic step (R6): the agent the schedule names takes its turn. -/
def step (s : State) : Host.Outcome State Fault Refusal := nextTurn s

/-- The state whose next step runs the transaction of an opcode-table word (log 14). -/
def State.withFetchWord (s : State) (nbits w : Nat) : State := s.placeWord nbits w

end Sys2Proof.Machine
end

