-- ==== Sys2Proof/Safety.lean ====
section
/-! DEFINITION. Sys2Proof/Safety.lean: the terms the statements are made in: the invariant of every reachable state (R232), the
parts of a step a statement names, and the schedules of a whole pull. -/

namespace Sys2Proof.Machine

open Sys2Proof

/-! ## The invariant -/

/-- The block's writes that the HOST has still to see lead from its view to what it has acquired, and from there to `m`. -/
def HostSide.replays (h : HostSide) (m : List Host.Cell) : Prop :=
  ∀ a : Addr, lastAt h.view h.unmaintained a = Memory.read h.acquired a ∧ lastAt h.acquired h.unacquired a = Memory.read m a

/-- What holds in every reachable state (R232), with PARAM in its legal range (R44), the Burst buffer inside its capacity (R54) and
the memories in canonical form. Item 1 of R232 is the definition of BUSY. -/
structure State.Inv (s : State) : Prop where
  /-- DONE is 1 exactly when a result is held (item 2). -/
  doneIffResult : s.csr.done = true ↔ s.csr.result ≠ .none
  /-- A held result and a pull in flight exclude each other (item 3). -/
  doneIdle : s.csr.done = true → s.eng.state = .idle
  /-- The cursor is even (item 4). -/
  producedEven : s.eng.produced.toNat % 2 = 0
  /-- The length of a pull in flight is even and at least 2, and the cursor does not pass it (item 5). -/
  busyLen : s.eng.state ≠ .idle →
    s.eng.len.toNat % 2 = 0 ∧ 2 ≤ s.eng.len.toNat ∧ s.eng.len.toNat ≤ 65534 ∧ s.eng.produced.toNat ≤ s.eng.len.toNat
  /-- The outstanding request is the remaining Samples, at most the capacity, and no more Frames than it asks for are accepted
  (item 6). -/
  waitRequest : s.eng.state = .wait →
    s.eng.req.toNat = min ((s.eng.len.toNat - s.eng.produced.toNat) / 2) s.csr.burstCap.toNat ∧
      1 ≤ s.eng.req.toNat ∧ s.eng.k.toNat ≤ s.eng.req.toNat
  /-- The rest of the burst fits into the rest of the region (item 7). -/
  writeFits : s.eng.state = .write →
    s.eng.i.toNat ≤ s.eng.k.toNat ∧ s.eng.k.toNat ≤ s.eng.req.toNat ∧
      s.eng.produced.toNat + 2 * (s.eng.k.toNat - s.eng.i.toNat) ≤ s.eng.len.toNat
  /-- The entries of the current burst have been written (item 8). -/
  burstHeld : s.eng.state = .wait ∨ s.eng.state = .write →
    ∀ j, j < s.eng.k.toNat → (cellLookup j s.burst).isSome = true
  /-- A held OK means that all of the region was written (item 9). -/
  okComplete : s.csr.result = .ok → s.eng.produced = s.eng.len
  /-- BURST_CAP is legal (R10, R44). -/
  capLegal : 1 ≤ s.csr.burstCap.toNat ∧ s.csr.burstCap.toNat ≤ 32767
  /-- The Burst buffer has BURST_CAP entries (R54). -/
  burstBounded : cellsRising s.burst ∧ ∀ c ∈ s.burst, c.1 < s.csr.burstCap.toNat
  /-- OUTMEM is in canonical form. -/
  outmemWf : Memory.wf s.outmem
  /-- So are the HOST's view and what it has acquired. -/
  viewsWf : Memory.wf s.host.view ∧ Memory.wf s.host.acquired
  /-- The HOST's view, the writes it has still to see and OUTMEM fit together. -/
  viewsReplay : s.host.replays s.outmem

/-! ## Parts of a step -/

/-- The command word an event writes to CTRL, if it is a CTRL write (R112, R113). -/
def Event.command : Event → Option Word
  | .host t w => if isWrite t = true ∧ slotOf t = 0 then some w else none
  | _ => none

/-- The event is a HOST write of BUF_BASE, GAIN or CLAMP (R112). -/
def Event.writesConfig : Event → Bool
  | .host t _ => isWrite t && (slotOf t == 2 || slotOf t == 3 || slotOf t == 4)
  | _ => false

/-- The event is a HOST write of OUTMEM by its own path. -/
def Event.isMemWrite : Event → Bool
  | .memWrite _ _ => true
  | _ => false

/-- The state with its next event taken off the schedule. -/
def State.popped (s : State) : State := { s with schedule := s.schedule.tail }

/-- The beat the SOURCE presents when the block is about to accept it (R223). -/
def State.acceptedBeat (s : State) (e : Event) : Option Beat :=
  match e, s.channel with
  | .source, b :: _ => if s.acceptsBeat b then some b else none
  | _, _ => none

/-- The ENGINE's turn takes WRITE_SAMPLE (R226). -/
def State.takesWriteSample (s : State) (e : Event) : Bool :=
  match e with
  | .engine accepts => decide (s.eng.state = .write ∧ s.eng.i.toNat < s.eng.k.toNat) && accepts
  | _ => false

/-- The step ends a pull by `complete`: ISSUE at the end of the region, or an accepted `End(Fault)` (R228). -/
def State.completes (s : State) (e : Event) : Prop :=
  (s.eng.state = .issue ∧ s.eng.produced = s.eng.len ∧ ∃ a, e = .engine a) ∨
    ∃ b, s.acceptedBeat e = some b ∧ b.getLsbD 33 = true ∧ b.getLsbD 32 = true

/-! ## The schedules of a whole pull -/

/-- One read that delivers `k` Frames and ends Ok: ISSUE, `k` Frame beats and the End beat, `k` WRITE_SAMPLE steps, WRITE_END. -/
def okReadTurns (k : Nat) : List Event :=
  .engine true :: (List.replicate (k + 1) .source ++ List.replicate (k + 1) (.engine true))

/-- One read that delivers `k` Frames and ends Fault. -/
def faultReadTurns (k : Nat) : List Event := .engine true :: List.replicate (k + 1) .source

/-- The CTRL write of `pull len` (R125). -/
def pullTurn (len : Count) : Event := .host (Pseudo.pull len).expand.1 (Pseudo.pull len).expand.2

/-- A pull whose reads deliver these bursts and all end Ok, up to the ISSUE that ends it. -/
def okPullTurns (len : Count) (bursts : List (List Frame)) : List Event :=
  pullTurn len :: (bursts.flatMap (fun b => okReadTurns b.length) ++ [.engine true])

/-- A pull whose reads deliver these bursts and end Ok, but for a last one that ends Fault. -/
def faultPullTurns (len : Count) (bursts : List (List Frame)) (last : List Frame) : List Event :=
  pullTurn len :: (bursts.flatMap (fun b => okReadTurns b.length) ++ faultReadTurns last.length)

/-- What the reads of a pull ask for while `n` Samples remain, if they deliver these numbers of Frames (R221, R236). -/
def requestSizes (cap : Nat) : Nat → List Nat → List Nat
  | _, [] => []
  | n, k :: ks => min n cap :: requestSizes cap (n - k) ks

/-- The Frame count of a REQ transaction (R118). -/
def Observation.requested : Observation → Option Nat
  | .req c => some c.toNat
  | _ => none

/-- The Frame counts of the requests issued so far, oldest first. -/
def State.requests (s : State) : List Nat := (s.trace.filterMap Observation.requested).reverse

/-- From `base` on, memory holds these Samples, little-endian, one after the other, addresses mod 2^32 (R83, R84). -/
def holdsSamples (m : List Host.Cell) (base : Addr) (ss : List Sample) : Prop :=
  ∀ j x, ss[j]? = some x →
    Memory.read m (base + BitVec.ofNat 32 (2 * j)) = x.extractLsb' 0 8 ∧
      Memory.read m (base + BitVec.ofNat 32 (2 * j + 1)) = x.extractLsb' 8 8

/-- Every byte outside the `n` bytes from `base` on reads as before. -/
def keepsOutside (m m' : List Host.Cell) (base : Addr) (n : Nat) : Prop :=
  ∀ a : Addr, n ≤ (a - base).toNat → Memory.read m' a = Memory.read m a

end Sys2Proof.Machine
end

