-- ==== Sys2Proof/Certificates/Slice0/Obligations.lean ====
section
/-! DEFINITION. Sys2Proof/Certificates/Slice0/Obligations.lean: the statements for the provers. Each docstring names the rules of
spec/ it formalises. -/

open Sys2Proof Sys2Proof.Machine

/-! ## Reset -/

/-- R56: every value of the reset table. What an unwritten Burst entry holds is the unspecified one (log 6). -/
def Obligations.ResetStateHoldsTheListedValues : Prop :=
  let s := State.reset
  s.csr.done = false ∧ s.csr.result.code = 0 ∧ s.csr.protoErr = false ∧ s.busy = false ∧
    s.statusWord.extractLsb' 16 16 = 0 ∧ s.statusWord = 0x00000000 ∧ s.csr.bufBase = 0x00000000 ∧
    s.csr.gainWord = 0x00000004 ∧ s.csr.gain = 4 ∧ s.csr.shift = 0 ∧
    s.csr.clampWord = 0x7FFF8000 ∧ s.csr.clampLo.toInt = -32768 ∧ s.csr.clampHi.toInt = 32767 ∧
    s.csr.paramWord = 0#16 ++ Config.burstCap ∧ s.reqLenWord = 0x00000000 ∧
    s.eng.state = .idle ∧ s.eng.len = 0 ∧ s.eng.produced = 0 ∧ s.eng.req = 0 ∧ s.eng.k = 0 ∧ s.eng.i = 0 ∧
    s.irq = false ∧ ∀ j, s.burstEntry j = Config.burstUnspecified s.resets j.toNat

/-- R340, R342: reset from any state, in one step that cannot fail; PARAM is hardwired (R44), OUTMEM, the SOURCE's channel and the
HOST's side keep what they hold. -/
def Obligations.ResetFromAnyStateReachesTheResetValues : Prop :=
  ∀ (s : State) (rest : List Event), s.schedule = .reset :: rest →
    ∃ t, step s = .next t ∧
      t.csr.done = false ∧ t.csr.result = .none ∧ t.csr.protoErr = false ∧ t.statusWord = 0x00000000 ∧
      t.csr.bufBase = 0 ∧ t.csr.gainWord = 0x00000004 ∧ t.csr.clampWord = 0x7FFF8000 ∧ t.reqLenWord = 0 ∧
      t.csr.burstCap = s.csr.burstCap ∧
      t.eng = { state := .idle, len := 0, produced := 0, req := 0, k := 0, i := 0 } ∧ t.irq = false ∧
      (∀ j, t.burstEntry j = Config.burstUnspecified t.resets j.toNat) ∧
      t.outmem = s.outmem ∧ t.channel = s.channel ∧ t.host = s.host ∧
      t.trace = s.trace ∧ t.schedule = rest

/-! ## A step runs the agent the schedule names -/

/-- The HOST's transaction, decoded, is what the step runs. -/
def Obligations.StepRunsTheScheduledHostTransaction : Prop :=
  ∀ (s : State) (t : Descriptor) (w : Word) (rest : List Event), s.schedule = .host t w :: rest →
    (decode (.bus t w)).wf = true ∧ step s = exec (decode (.bus t w)) { s with schedule := rest }

/-- R223: the head beat of the channel is accepted when its step is enabled, and then leaves the channel and is executed; otherwise
it is refused, nothing changes, and it stays at the head. -/
def Obligations.StepAcceptsOrHoldsTheHeadBeat : Prop :=
  ∀ (s : State) (b : Beat) (bs : List Beat) (rest : List Event),
    s.schedule = .source :: rest → s.channel = b :: bs →
      (s.eng.state = .wait → (b.getLsbD 33 = false → s.eng.k.toNat < s.eng.req.toNat) →
        step s = exec (decode (.src b)) { s with schedule := rest, channel := bs }) ∧
      (s.eng.state ≠ .wait → step s = .next { s with schedule := rest }) ∧
      (b.getLsbD 33 = false → s.eng.k = s.eng.req → step s = .next { s with schedule := rest })

/-- R220: which step the ENGINE takes in each state, and that it takes none in IDLE and WAIT, nor while OUTMEM stalls a write. -/
def Obligations.StepTakesTheEnabledEngineStep : Prop :=
  ∀ (s : State) (a : Bool) (rest : List Event), s.schedule = .engine a :: rest →
    (s.eng.state = .idle ∨ s.eng.state = .wait → step s = .next { s with schedule := rest }) ∧
    (s.eng.state = .issue → step s = .next ({ s with schedule := rest } : State).issue) ∧
    (s.eng.state = .write → s.eng.i = s.eng.k →
      step s = .next { s with schedule := rest, eng := { s.eng with state := .issue } }) ∧
    (s.eng.state = .write → s.eng.i.toNat < s.eng.k.toNat →
      step s = .next (if a then ({ s with schedule := rest } : State).writeSample else { s with schedule := rest }))

/-- With nothing scheduled no agent acts, and an empty channel presents no beat (log 2: the model's choice). -/
def Obligations.StepWithNoEnabledAgentChangesNothing : Prop :=
  ∀ s : State,
    (s.schedule = [] → step s = .next s) ∧
    ∀ rest, s.schedule = .source :: rest → s.channel = [] → step s = .next { s with schedule := rest }

/-! ## Commands -/

/-- R171: NOP changes nothing, whatever its ignored bits, idle or busy. -/
def Obligations.NopChangesNothing : Prop :=
  ∀ (len : BitVec 16) (rsv : BitVec 12) (s : State), exec (.nop len rsv) s = .next s

/-- R172: PULL while idle. An even positive length starts the pull, any other is rejected; nothing else changes. -/
def Obligations.PullWhileIdleStartsOrRejects : Prop :=
  ∀ (len : BitVec 16) (rsv : BitVec 12) (s : State), s.eng.state = .idle →
    (len ≠ 0 → len.getLsbD 0 = false →
      exec (.pull len rsv) s = .next { s with
        csr := { s.csr with result := .none, done := false }
        eng := { s.eng with len := len, produced := 0, state := .issue } }) ∧
    (len = 0 ∨ len.getLsbD 0 = true →
      exec (.pull len rsv) s = .next { s with
        csr := { s.csr with result := .rejected, done := true }
        eng := { s.eng with len := len, produced := 0 } })

/-- R174: ACK while idle clears DONE, RESULT and PROTO_ERR and nothing else. -/
def Obligations.AckWhileIdleReleasesTheResult : Prop :=
  ∀ (len : BitVec 16) (rsv : BitVec 12) (s : State), s.eng.state = .idle →
    exec (.ack len rsv) s =
      .next { s with csr := { s.csr with done := false, result := .none, protoErr := false } }

/-- R175: every reserved opcode sets PROTO_ERR and nothing else, idle or busy. -/
def Obligations.ReservedOpcodesOnlySetProtoErr : Prop :=
  ∀ (len : BitVec 16) (rsv : BitVec 12) (op : BitVec 4) (s : State),
    let flagged : State := { s with csr := { s.csr with protoErr := true } }
    exec (.reservedCmd3 len rsv) s = .next flagged ∧
    exec (.reservedCmd4to7 len rsv op) s = .next flagged ∧
    exec (.reservedCmd8to15 len rsv op) s = .next flagged

/-- R176: while a pull is in flight a CTRL write with OP other than 0, and each command by itself, changes PROTO_ERR alone. -/
def Obligations.CommandsWhileBusyAreDroppedWithProtoErr : Prop :=
  ∀ (s : State), s.eng.state ≠ .idle →
    let flagged : State := { s with csr := { s.csr with protoErr := true } }
    (∀ len rsv, exec (.pull len rsv) s = .next flagged ∧ exec (.ack len rsv) s = .next flagged) ∧
    ∀ lane (w : Word), w.extractLsb' 0 4 ≠ 0 → exec (.wrCtrl lane w) s = .next flagged

/-- R170, R193: a CTRL write runs its data as a command, in the order of checks of the dispatch. -/
def Obligations.CtrlWriteRunsItsDataAsACommand : Prop :=
  ∀ (lane : BitVec 2) (w : Word) (s : State),
    let op := w.extractLsb' 0 4
    let len := w.extractLsb' 16 16
    let flagged : State := { s with csr := { s.csr with protoErr := true } }
    exec (.wrCtrl lane w) s = .next (
      if op = 0 then s
      else if s.eng.state ≠ .idle then flagged
      else if op = 1 then
        if len = 0 ∨ len.getLsbD 0 = true then
          { s with
            csr := { s.csr with result := .rejected, done := true }
            eng := { s.eng with len := len, produced := 0 } }
        else
          { s with
            csr := { s.csr with result := .none, done := false }
            eng := { s.eng with len := len, produced := 0, state := .issue } }
      else if op = 2 then { s with csr := { s.csr with done := false, result := .none, protoErr := false } }
      else flagged)

/-- R123: the step that a BUS transaction stands for is the one `decode_bus` names, which decodes a CTRL write to its command. -/
def Obligations.CtrlWriteIsItsDecodedCommand : Prop :=
  ∀ (t : Descriptor) (w : Word) (s : State), exec (decodeBus t w) s = exec (decodeBusToCommand t w) s

/-- R125: each pseudo-instruction's BUS transaction has the command's or the register write's effect. -/
def Obligations.PseudoInstructionsAreTheirTransactions : Prop :=
  ∀ (s : State) (n : Count) (a : Addr) (g : BitVec 16) (sh : BitVec 4) (lo hi : BitVec 16),
    let run := fun p : Pseudo => exec (decodeBus p.expand.1 p.expand.2) s
    run .nop = exec (.nop 0 0) s ∧ run (.pull n) = exec (.pull n 0) s ∧ run .ack = exec (.ack 0 0) s ∧
    (s.eng.state = .idle →
      run (.setbase a) = .next { s with csr := { s.csr with bufBase := a } } ∧
      run (.setgain g sh) = .next { s with csr := { s.csr with gain := g, shift := sh } } ∧
      run (.setclamp lo hi) = .next { s with csr := { s.csr with clampLo := lo, clampHi := hi } })

/-! ## CSR reads -/

/-- R194: RD STATUS returns PRODUCED, zeros, PROTO_ERR, RESULT, DONE and BUSY in their places; no state of the block changes. -/
def Obligations.StatusReadReturnsTheStatusFields : Prop :=
  ∀ (lane : BitVec 2) (s : State), ∃ (v : Word) (t : State),
    exec (.rdStatus lane) s = .next t ∧ t.trace = .rdata v :: s.trace ∧
      v.extractLsb' 16 16 = s.eng.produced ∧ v.extractLsb' 5 11 = 0 ∧ v.getLsbD 4 = s.csr.protoErr ∧
      v.extractLsb' 2 2 = s.csr.result.code ∧ v.getLsbD 1 = s.csr.done ∧
      (v.getLsbD 0 = true ↔ s.eng.state ≠ .idle) ∧
      t.csr = s.csr ∧ t.eng = s.eng ∧ t.burst = s.burst ∧ t.outmem = s.outmem ∧ t.channel = s.channel ∧
      t.schedule = s.schedule

/-- R196, R198, R200: the configuration registers read as they are held; GAIN's bits 31:20 read 0. -/
def Obligations.ConfigurationReadsReturnTheRegisters : Prop :=
  ∀ (lane : BitVec 2) (s : State),
    exec (.rdBufBase lane) s = .next { s with trace := .rdata s.csr.bufBase :: s.trace } ∧
    exec (.rdGain lane) s = .next { s with trace := .rdata (0#12 ++ s.csr.shift ++ s.csr.gain) :: s.trace } ∧
    exec (.rdClamp lane) s = .next { s with trace := .rdata (s.csr.clampHi ++ s.csr.clampLo) :: s.trace }

/-- R192, R202, R204, R206: CTRL and the reserved slots read 0, PARAM reads BURST_CAP and REQ_LEN the length. -/
def Obligations.HardwiredAndReservedReads : Prop :=
  ∀ (lane : BitVec 2) (slot : BitVec 4) (s : State),
    exec (.rdCtrl lane) s = .next { s with trace := .rdata 0 :: s.trace } ∧
    exec (.rdParam lane) s = .next { s with trace := .rdata (0#16 ++ s.csr.burstCap) :: s.trace } ∧
    exec (.rdReqLen lane) s = .next { s with trace := .rdata (0#16 ++ s.eng.len) :: s.trace } ∧
    exec (.rdRsv1C lane) s = .next { s with trace := .rdata 0 :: s.trace } ∧
    exec (.rdRsv20to3F slot lane) s = .next { s with trace := .rdata 0 :: s.trace }

/-- R190: every CSR read returns a value and changes no state; a second read with no step between returns the same; reserved fields
read 0. The HOST's side (its view of OUTMEM) is not state of the block. -/
def Obligations.EveryCsrReadIsIdempotentAndChangesNoState : Prop :=
  ∀ (t : Descriptor) (w : Word) (s : State), t.getLsbD 6 = false →
    ∃ (v : Word) (u u' : State),
      exec (decodeBus t w) s = .next u ∧ exec (decodeBus t w) u = .next u' ∧
      u.trace = .rdata v :: s.trace ∧ u'.trace = .rdata v :: u.trace ∧
      u.csr = s.csr ∧ u.eng = s.eng ∧ u.burst = s.burst ∧ u.outmem = s.outmem ∧ u.channel = s.channel ∧
      u.schedule = s.schedule ∧ u.irq = s.irq ∧
      (t.extractLsb' 2 4 = 1 → v &&& 0x0000FFE0 = 0) ∧ (t.extractLsb' 2 4 = 3 → v &&& 0xFFF00000 = 0) ∧
      (t.extractLsb' 2 4 = 5 ∨ t.extractLsb' 2 4 = 6 → v &&& 0xFFFF0000 = 0) ∧
      (t.extractLsb' 2 4 = 0 ∨ 7 ≤ (t.extractLsb' 2 4).toNat → v = 0)

/-! ## CSR writes -/

/-- R197, R199, R201: BUF_BASE, GAIN and CLAMP writes, idle and busy. -/
def Obligations.ConfigurationWritesWhileIdleAndBusy : Prop :=
  ∀ (lane : BitVec 2) (w : Word) (s : State),
    (s.eng.state = .idle →
      exec (.wrBufBase lane w) s = .next { s with csr := { s.csr with bufBase := w } } ∧
      exec (.wrGain lane w) s =
        .next { s with csr := { s.csr with gain := w.extractLsb' 0 16, shift := w.extractLsb' 16 4 } } ∧
      exec (.wrClamp lane w) s =
        .next { s with csr := { s.csr with clampLo := w.extractLsb' 0 16, clampHi := w.extractLsb' 16 16 } }) ∧
    (s.eng.state ≠ .idle →
      let flagged : State := { s with csr := { s.csr with protoErr := true } }
      exec (.wrBufBase lane w) s = .next flagged ∧ exec (.wrGain lane w) s = .next flagged ∧
      exec (.wrClamp lane w) s = .next flagged)

/-- R195, R203, R205, R207: writes to STATUS, PARAM, REQ_LEN and the reserved slots change nothing, idle or busy. -/
def Obligations.WritesToReadOnlyAndReservedSlotsAreIgnored : Prop :=
  ∀ (lane : BitVec 2) (slot : BitVec 4) (w : Word) (s : State),
    exec (.wrStatus lane w) s = .next s ∧ exec (.wrParam lane w) s = .next s ∧ exec (.wrReqLen lane w) s = .next s ∧
    exec (.wrRsv5C lane w) s = .next s ∧ exec (.wrRsv60to7F slot lane w) s = .next s

/-- A CSR write other than to CTRL changes at most the register it addresses and PROTO_ERR (R191). -/
def Obligations.CsrWriteChangesOnlyItsRegisterAndProtoErr : Prop :=
  ∀ (t : Descriptor) (w : Word) (s : State), t.getLsbD 6 = true → t.extractLsb' 2 4 ≠ 0 →
    ∃ u : State, exec (decodeBus t w) s = .next u ∧
      u = { s with csr := u.csr } ∧
      u.csr.done = s.csr.done ∧ u.csr.result = s.csr.result ∧ u.csr.burstCap = s.csr.burstCap ∧
      (t.extractLsb' 2 4 ≠ 2 → u.csr.bufBase = s.csr.bufBase) ∧
      (t.extractLsb' 2 4 ≠ 3 → u.csr.gain = s.csr.gain ∧ u.csr.shift = s.csr.shift) ∧
      (t.extractLsb' 2 4 ≠ 4 → u.csr.clampLo = s.csr.clampLo ∧ u.csr.clampHi = s.csr.clampHi)

/-- A configuration register written while idle is read back by the next transaction, GAIN without its reserved bits
(R41 to R43, R350). -/
def Obligations.ConfigurationWriteReadsBackAtOnce : Prop :=
  ∀ (l l' : BitVec 2) (w : Word) (s : State), s.eng.state = .idle →
    (∃ t u, exec (.wrBufBase l w) s = .next t ∧ exec (.rdBufBase l') t = .next u ∧ u.trace = .rdata w :: s.trace) ∧
    (∃ t u, exec (.wrGain l w) s = .next t ∧ exec (.rdGain l') t = .next u ∧
      u.trace = .rdata (w &&& 0x000FFFFF) :: s.trace) ∧
    (∃ t u, exec (.wrClamp l w) s = .next t ∧ exec (.rdClamp l') t = .next u ∧ u.trace = .rdata w :: s.trace)

/-! ## Source beats -/

/-- R222: a Frame beat in WAIT with `k < req` goes into entry `k`, and `k` advances; no other entry changes. -/
def Obligations.FrameBeatFillsTheNextBurstEntry : Prop :=
  ∀ (st : BitVec 1) (d : Frame) (s : State), s.eng.state = .wait → s.eng.k.toNat < s.eng.req.toNat →
    ∃ t, exec (.frame st d) s = .next t ∧
      t = { s with burst := t.burst, eng := { s.eng with k := s.eng.k + 1 } } ∧
      t.burstEntry s.eng.k = d ∧ ∀ j, j ≠ s.eng.k → t.burstEntry j = s.burstEntry j

/-- R223: a Frame beat outside WAIT or with `k = req`, and an End beat outside WAIT, are refused without effect. -/
def Obligations.BeatsAreRefusedWithoutEffect : Prop :=
  ∀ (st : BitVec 1) (d data : BitVec 32) (s : State),
    (s.eng.state ≠ .wait ∨ s.eng.k = s.eng.req → exec (.frame st d) s = .next s) ∧
    (s.eng.state ≠ .wait → exec (.endOk data) s = .next s ∧ exec (.endFault data) s = .next s)

/-- R224: `End(Ok)` in WAIT starts the writing of the burst. -/
def Obligations.EndOkMovesToWrite : Prop :=
  ∀ (data : BitVec 32) (s : State), s.eng.state = .wait →
    exec (.endOk data) s = .next { s with eng := { s.eng with i := 0, state := .write } }

/-- R225: `End(Fault)` in WAIT ends the pull with FAULT; nothing of this read is written. -/
def Obligations.EndFaultCompletesThePullWithFault : Prop :=
  ∀ (data : BitVec 32) (s : State), s.eng.state = .wait →
    exec (.endFault data) s = .next { s with
      csr := { s.csr with result := .fault, done := true }
      eng := { s.eng with state := .idle } }

/-! ## Engine steps -/

/-- R221: ISSUE completes OK at the end of the region; before it, it requests the remaining Samples, at most BURST_CAP and at
least one. -/
def Obligations.IssueCompletesOrRequestsTheNextRead : Prop :=
  ∀ (s : State) (a : Bool) (rest : List Event), s.Inv → s.schedule = .engine a :: rest → s.eng.state = .issue →
    (s.eng.produced = s.eng.len →
      step s = .next { s with
        schedule := rest
        csr := { s.csr with result := .ok, done := true }
        eng := { s.eng with state := .idle } }) ∧
    (s.eng.produced ≠ s.eng.len →
      ∃ c : Count, c.toNat = min ((s.eng.len.toNat - s.eng.produced.toNat) / 2) s.csr.burstCap.toNat ∧
        1 ≤ c.toNat ∧ c.toNat ≤ s.csr.burstCap.toNat ∧
        step s = .next { s with
          schedule := rest
          eng := { s.eng with req := c, k := 0, state := .wait }
          trace := .req c :: s.trace })

/-- R226: WRITE_SAMPLE converts entry `i` and writes its two bytes at the cursor, low byte first; every other byte of OUTMEM reads
as before, and the cursor and the index advance. The two byte writes join those the HOST has not acquired (the model's, log 7). -/
def Obligations.WriteSampleWritesTheConvertedFrameAtTheCursor : Prop :=
  ∀ (s : State) (rest : List Event), s.schedule = .engine true :: rest → s.eng.state = .write →
    s.eng.i.toNat < s.eng.k.toNat →
    let x := s.csr.convert (s.burstEntry s.eng.i)
    let addr : Addr := s.csr.bufBase + s.eng.produced.setWidth 32
    ∃ t, step s = .next t ∧
      t = { s with
        schedule := rest
        outmem := t.outmem
        host := { s.host with
          unacquired := s.host.unacquired ++
            [(addr.toNat, x.extractLsb' 0 8), ((addr + 1).toNat, x.extractLsb' 8 8)] }
        eng := { s.eng with produced := s.eng.produced + 2, i := s.eng.i + 1 }
        trace := .memwr addr x :: s.trace } ∧
      Memory.read t.outmem addr = x.extractLsb' 0 8 ∧ Memory.read t.outmem (addr + 1) = x.extractLsb' 8 8 ∧
      ∀ y : Addr, y ≠ addr → y ≠ addr + 1 → Memory.read t.outmem y = Memory.read s.outmem y

/-- The Burst entry a WRITE_SAMPLE step reads is one that a FRAME step has written, so an unspecified entry is never read (R54). -/
def Obligations.WriteSampleReadsOnlyWrittenBurstEntries : Prop :=
  ∀ s : State, s.Inv → s.eng.state = .write → s.eng.i.toNat < s.eng.k.toNat →
    cellLookup s.eng.i.toNat s.burst = some (s.burstEntry s.eng.i)

/-- R84, R119: a Sample written at any address, odd or the last one, puts its low byte there and its high byte at the next address
mod 2^32, and changes no other byte; the canonical form is kept. -/
def Obligations.SampleIsWrittenLittleEndianAtAnyAddress : Prop :=
  ∀ (m : List Host.Cell) (a : Addr) (x : Sample),
    (∃ next : Addr, next.toNat = (a.toNat + 1) % 2 ^ 32 ∧
      Memory.read (Memory.writeSample m a x) a = x.extractLsb' 0 8 ∧
      Memory.read (Memory.writeSample m a x) next = x.extractLsb' 8 8 ∧
      ∀ y, y ≠ a → y ≠ next → Memory.read (Memory.writeSample m a x) y = Memory.read m y) ∧
    (Memory.wf m → Memory.wf (Memory.writeSample m a x))

/-! ## CONVERT -/

/-- R156: at the reset configuration the Sample is `clamp(v * 4, -32768, 32767)`, with the exact edges. -/
def Obligations.ConvertAtResetIsTimesFourSaturated : Prop :=
  ∀ (f : Frame),
    let v := (f.extractLsb' 16 16).toInt
    let x := Csr.reset.convert f
    x.toInt = min (max (v * 4) (-32768)) 32767 ∧
    (8192 ≤ v → x = 0x7FFF) ∧ (v ≤ -8192 → x = 0x8000) ∧ (-8192 < v → v < 8192 → x.toInt = 4 * v)

/-- R150 to R154: the Sample is the floor of the exact product over `2^sh`, saturated; with `lo <= hi` it is that floor or the bound
the floor passes. -/
def Obligations.ConvertIsTheFlooredProductSaturated : Prop :=
  ∀ (c : Csr) (f : Frame),
    let v := (f.extractLsb' 16 16).toInt
    ∃ q : Int, 2 ^ c.shift.toNat * q ≤ v * c.gain.toNat ∧ v * c.gain.toNat < 2 ^ c.shift.toNat * (q + 1) ∧
      (c.convert f).toInt = min (max q c.clampLo.toInt) c.clampHi.toInt ∧
      (c.clampLo.toInt ≤ c.clampHi.toInt →
        (c.clampLo.toInt ≤ q → q ≤ c.clampHi.toInt → (c.convert f).toInt = q) ∧
        (q < c.clampLo.toInt → c.convert f = c.clampLo) ∧ (c.clampHi.toInt < q → c.convert f = c.clampHi))

/-- R155: with inverted bounds every Frame converts to HI. -/
def Obligations.InvertedBoundsConvertEveryFrameToTheUpperBound : Prop :=
  ∀ (c : Csr) (f : Frame), c.clampHi.toInt < c.clampLo.toInt → c.convert f = c.clampHi

/-- R152: the product is exact and lies in [-2147450880, 2147385345], so a signed 32-bit multiplier never overflows. -/
def Obligations.ProductNeverOverflowsThirtyTwoBits : Prop :=
  ∀ (c : Csr) (f : Frame),
    let p := (f.extractLsb' 16 16).toInt * (c.gain.toNat : Int)
    c.product f = p ∧ -2147450880 ≤ p ∧ p ≤ 2147385345 ∧ (BitVec.ofInt 32 p).toInt = p

/-- CONVERT depends on the upper half of the Frame and on GAIN, SHIFT, LO and HI alone (R151, R157). -/
def Obligations.ConvertDependsOnTheUpperHalfAndConfigurationAlone : Prop :=
  ∀ (c c' : Csr) (f f' : Frame), f.extractLsb' 16 16 = f'.extractLsb' 16 16 →
    c.gain = c'.gain → c.shift = c'.shift → c.clampLo = c'.clampLo → c.clampHi = c'.clampHi →
    c.convert f = c'.convert f'

/-! ## Rules about the whole machine -/

/-- Every transaction of the opcode table answers a next state from every state, whatever its operands, and none stores to OUTMEM or
changes PARAM: no trap and no refusal (R300, R92). That a beat refused outside WAIT or at `k = req` answers the state unchanged (where
R220 and R223 say that its step is not taken and the beat is held), and that `exec` keeps the channel even for an accepted beat, which
the step takes off it, are the model's choices (log 2, log 4). -/
def Obligations.EveryTransactionCompletesAndStoresNothing : Prop :=
  ∀ (i : Instr) (s : State), ∃ t, exec i s = .next t ∧
    (∀ a : Addr, Memory.read t.outmem a = Memory.read s.outmem a) ∧ t.csr.burstCap = s.csr.burstCap ∧
    t.channel = s.channel ∧ t.schedule = s.schedule ∧ t.resets = s.resets

/-- R100: the one stop of the machine is the HOST's write into the output region of a pull in flight. -/
def Obligations.OnlyAHostWriteIntoTheBusyRegionStops : Prop :=
  ∀ s : State, (¬ ∃ t, step s = .next t) ↔
    ∃ (a : Addr) (b : Byte) (rest : List Event), s.schedule = .memWrite a b :: rest ∧ s.eng.state ≠ .idle ∧
      (∃ j : Nat, j < s.eng.len.toNat ∧ a = s.csr.bufBase + BitVec.ofNat 32 j) ∧
      step s = .fault .hostWroteRegion

/-- R37: only `complete` and a rejected PULL set DONE; only an accepted PULL, ACK and reset clear it. -/
def Obligations.OnlyTheListedStepsChangeDone : Prop :=
  ∀ (s t : State) (e : Event) (rest : List Event), s.schedule = e :: rest → step s = .next t →
    (t.csr.done = true ↔
      (s.completes e ∨
        (s.eng.state = .idle ∧ ∃ w, e.command = some w ∧ opOf w = 1 ∧ (lenOf w = 0 ∨ (lenOf w).getLsbD 0 = true)) ∨
        (s.csr.done = true ∧ e ≠ .reset ∧
          ¬(s.eng.state = .idle ∧ ∃ w, e.command = some w ∧
            (opOf w = 2 ∨ (opOf w = 1 ∧ lenOf w ≠ 0 ∧ (lenOf w).getLsbD 0 = false))))))

/-- RESULT is written by the steps that write DONE and by no other, each with its own code (R37, R38). -/
def Obligations.ResultTellsHowThePullEnded : Prop :=
  ∀ (s t : State) (e : Event) (rest : List Event), s.schedule = e :: rest → step s = .next t →
    let commanded := fun (p : Word → Prop) => s.eng.state = .idle ∧ ∃ w, e.command = some w ∧ p w
    let legal := fun (w : Word) => lenOf w ≠ 0 ∧ (lenOf w).getLsbD 0 = false
    (s.completes e → t.csr.result = if s.eng.state = .issue then .ok else .fault) ∧
    (commanded (fun w => opOf w = 1 ∧ ¬ legal w) → t.csr.result = .rejected) ∧
    (commanded (fun w => opOf w = 2 ∨ (opOf w = 1 ∧ legal w)) ∨ e = .reset → t.csr.result = .none) ∧
    (¬ s.completes e → ¬ commanded (fun w => opOf w = 1 ∨ opOf w = 2) → e ≠ .reset → t.csr.result = s.csr.result)

/-- R39: PROTO_ERR is set by a non-zero opcode while busy, a reserved opcode, or a configuration write while busy; only ACK and reset
clear it. -/
def Obligations.ProtoErrIsStickyAndSetByTheListedEvents : Prop :=
  ∀ (s t : State) (e : Event) (rest : List Event), s.schedule = e :: rest → step s = .next t →
    (t.csr.protoErr = true ↔
      ((s.eng.state ≠ .idle ∧ ∃ w, e.command = some w ∧ opOf w ≠ 0) ∨
        (∃ w, e.command = some w ∧ 3 ≤ (opOf w).toNat) ∨
        (s.eng.state ≠ .idle ∧ e.writesConfig = true) ∨
        (s.csr.protoErr = true ∧ e ≠ .reset ∧
          ¬(s.eng.state = .idle ∧ ∃ w, e.command = some w ∧ opOf w = 2))))

/-- PRODUCED changes only by WRITE_SAMPLE, by a PULL that reaches the length check, and by reset (R40). -/
def Obligations.ProducedChangesOnlyByTheListedSteps : Prop :=
  ∀ (s t : State) (e : Event) (rest : List Event), s.schedule = e :: rest → step s = .next t →
    (e = .reset → t.eng.produced = 0) ∧
    ((s.eng.state = .idle ∧ ∃ w, e.command = some w ∧ opOf w = 1) → t.eng.produced = 0) ∧
    (s.takesWriteSample e = true → t.eng.produced = s.eng.produced + 2) ∧
    (e ≠ .reset → ¬(s.eng.state = .idle ∧ ∃ w, e.command = some w ∧ opOf w = 1) → s.takesWriteSample e = false →
      t.eng.produced = s.eng.produced)

/-- Only an accepted PULL starts a pull, and once accepted a pull ends only by `complete` or by reset: no cancellation, no retry, no
timeout (R220, R235). -/
def Obligations.PullStartsAndEndsOnlyByTheListedSteps : Prop :=
  ∀ (s t : State) (e : Event) (rest : List Event), s.schedule = e :: rest → step s = .next t →
    (s.eng.state = .idle →
      (t.eng.state ≠ .idle ↔
        ∃ w, e.command = some w ∧ opOf w = 1 ∧ lenOf w ≠ 0 ∧ (lenOf w).getLsbD 0 = false)) ∧
    (s.eng.state ≠ .idle → (t.eng.state = .idle ↔ s.completes e ∨ e = .reset))

/-- While a pull is in flight no step but reset changes BUF_BASE, GAIN or CLAMP, so all its Samples are converted under one
configuration and written from one base (R41, R157, R347); PARAM never changes (R44). -/
def Obligations.ConfigurationIsConstantDuringAPull : Prop :=
  ∀ s t : State, step s = .next t →
    t.csr.burstCap = s.csr.burstCap ∧
    (s.eng.state ≠ .idle → s.schedule.head? ≠ some .reset →
      t.csr.bufBase = s.csr.bufBase ∧ t.csr.gain = s.csr.gain ∧ t.csr.shift = s.csr.shift ∧
      t.csr.clampLo = s.csr.clampLo ∧ t.csr.clampHi = s.csr.clampHi ∧ ∀ f, t.csr.convert f = s.csr.convert f)

/-- No BUS transaction disturbs a pull in flight: the engine, the Burst buffer, OUTMEM, the channel and every CSR but PROTO_ERR are
unchanged (R176, R306). -/
def Obligations.BusTransactionsNeverDisturbAPullInFlight : Prop :=
  ∀ (s : State) (d : Descriptor) (w : Word) (rest : List Event), s.eng.state ≠ .idle →
    s.schedule = .host d w :: rest →
    ∃ t, step s = .next t ∧ t.eng = s.eng ∧ t.burst = s.burst ∧ t.outmem = s.outmem ∧ t.channel = s.channel ∧
      t.csr = { s.csr with protoErr := t.csr.protoErr } ∧ t.resets = s.resets

/-- A byte of OUTMEM that a step of the block changes is one of the two at the cursor of a pull in state WRITE, inside the region; the
cursor advances past them (R83, R95, R96). -/
def Obligations.OutputWritesStayInTheRegionInOrder : Prop :=
  ∀ (s t : State), s.Inv → step s = .next t → (∀ e rest, s.schedule = e :: rest → e.isMemWrite = false) →
    ∀ a : Addr, Memory.read t.outmem a ≠ Memory.read s.outmem a →
      s.eng.state = .write ∧ t.eng.produced.toNat = s.eng.produced.toNat + 2 ∧
      s.eng.produced.toNat ≤ (a - s.csr.bufBase).toNat ∧ (a - s.csr.bufBase).toNat < t.eng.produced.toNat ∧
      t.eng.produced.toNat ≤ s.eng.len.toNat

/-- While a result is held no step of the block changes a byte of OUTMEM, so every output write of a pull comes before its
`complete` (R97). -/
def Obligations.NoOutputWriteWhileAResultIsHeld : Prop :=
  ∀ (s t : State), s.Inv → s.csr.done = true → step s = .next t →
    (∀ e rest, s.schedule = e :: rest → e.isMemWrite = false) → t.outmem = s.outmem

/-- R55: `irq` is the level of STATUS.DONE; watching it changes nothing of the block. -/
def Obligations.IrqIsTheLevelOfDone : Prop :=
  ∀ (s : State) (rest : List Event), s.schedule = .watchIrq :: rest →
    ∃ t, step s = .next t ∧ t.trace = .irq s.csr.done :: s.trace ∧ t.csr = s.csr ∧ t.eng = s.eng ∧
      t.burst = s.burst ∧ t.outmem = s.outmem ∧ t.channel = s.channel ∧ State.reset.irq = false

/-! ## The HOST's own accesses -/

/-- R98: after the HOST has read DONE = 1, on a coherent platform or after its own maintenance, its reads return the bytes OUTMEM
holds. -/
def Obligations.HostReadsAfterDoneReturnTheWrittenBytes : Prop :=
  ∀ (lane : BitVec 2) (s : State), s.csr.done = true →
    ∃ t, exec (.rdStatus lane) s = .next t ∧ t.outmem = s.outmem ∧
      (Config.hostSeesWrites = true → ∀ n a, t.hostByte n a = Memory.read s.outmem a) ∧
      (∀ n a, t.maintain.hostByte n a = Memory.read s.outmem a)

/-- A HOST read changes nothing of the block or of OUTMEM and returns, byte by byte, any value the HOST's side admits (the free choice
of log 8). While a pull is in flight that takes in, for every byte of the region, the value the byte had before the pull and every
value the pull has written there since, however far the pull has come and whatever the HOST has or has not acquired before
(R91, R99, R349; the HOST's side is the model's, log 7). -/
def Obligations.HostReadReturnsOldOrNewByte : Prop :=
  (∀ (s : State) (a : Addr) (rest : List Event), s.schedule = .memRead a 2 :: rest →
    ∃ (b0 b1 : Byte) (t : State), step s = .next t ∧
      t.trace = .hostData (b0.toNat + 2 ^ 8 * b1.toNat) :: s.trace ∧
      b0 ∈ s.host.admitted a ∧ b1 ∈ s.host.admitted (a + 1) ∧
      t.csr = s.csr ∧ t.eng = s.eng ∧ t.burst = s.burst ∧ t.outmem = s.outmem ∧ t.channel = s.channel ∧ t.host = s.host) ∧
  (∀ (s : State) (a : Addr) (v : Byte), v ∈ s.host.admitted a ↔ ∃ c, s.hostByteBy c a = v) ∧
  ∀ (n : Nat) (s t : State) (a : Addr), s.Inv → s.inRegion a = true →
    (∀ m u, m < n → Host.Core.run Sys2Proof.core m s = .next u → u.eng.state ≠ .idle) →
    Host.Core.run Sys2Proof.core n s = .next t →
    ∀ m u, m ≤ n → Host.Core.run Sys2Proof.core m s = .next u → Memory.read u.outmem a ∈ t.host.admitted a

/-! ## The invariant -/

/-- The invariant holds at reset. -/
def Obligations.ResetMeetsTheInvariant : Prop := State.reset.Inv

/-- R232: every step keeps the invariant. The clauses on the memories and on the HOST's side are the model's (log 5, log 7). -/
def Obligations.EveryStepKeepsTheInvariant : Prop := ∀ s t : State, s.Inv → step s = .next t → t.Inv

/-! ## Encoding -/

/-- Decoding an encoded well-formed instruction gives it back, every operand bit and every ignored bit. -/
def Obligations.DecodeInvertsEncode : Prop := ∀ i : Instr, i.wf = true → decode (encode i) = i

/-- Every raw transaction decodes to a well-formed instruction whose encoding it is; a read carries no data (R123). -/
def Obligations.EncodeInvertsDecode : Prop :=
  ∀ r : Raw, (decode r).wf = true ∧
    encode (decode r) =
      match r with
      | .bus t w => .bus t (if t.getLsbD 6 then w else 0)
      | .cmd w => .cmd w
      | .src b => .src b

/-- R112: of all the rows of the opcode table exactly the row of the decoded instruction covers a raw transaction. -/
def Obligations.EveryTransactionLiesInExactlyOneRow : Prop :=
  ∀ (r : Raw) (row : Row), row ∈ opcodeTable → (row.covers r = true ↔ row = (decode r).row)

/-- Words written out from the spec's encodings decode to what they stand for (R111, R113, R116, R125). -/
def Obligations.WrittenOutWordsDecode : Prop :=
  decodeTableWord 32 0x02000001 = some (.pull 512 0) ∧ decodeTableWord 32 0x00000002 = some (.ack 0 0) ∧
  decodeTableWord 32 0xFFFFFFF0 = some (.nop 0xFFFF 0xFFF) ∧ decodeTableWord 8 0x04 = some (.rdStatus 0) ∧
  decodeTableWord 8 0x0F = some (.rdGain 3) ∧ decodeTableWord 8 0x48 = some (.wrBufBase 0 0) ∧
  decodeTableWord 8 0x7C = some (.wrRsv60to7F 15 0 0) ∧ decodeTableWord 40 0x000640000 = some (.frame 0 0x00640000) ∧
  decodeTableWord 40 0x200000000 = some (.endOk 0) ∧ decodeTableWord 40 0x300000000 = some (.endFault 0) ∧
  decodeTableWord 8 0x80 = none ∧ decodeTableWord 40 0x400000000 = none

/-! ## Whole pulls -/

/-- On the schedule `okPullTurns`, in which no turn stalls and the HOST takes no step after the PULL (log 1):
a pull whose reads all end Ok, in bursts of any sizes the capacity allows, empty ones among them, ends OK, and the region holds
exactly the converted Frames in capture order; nothing outside it changes (R229, R230, R231, R95). -/
def Obligations.PullWritesExactlyTheConvertedFramesInOrder : Prop :=
  ∀ (s : State) (len : Count) (bursts : List (List Frame)) (more : List Beat),
    s.Inv → s.eng.state = .idle →
    len.toNat = 2 * bursts.flatten.length →
    (∃ l x, bursts.getLast? = some (x :: l)) →
    (∀ b ∈ bursts, b.length ≤ s.csr.burstCap.toNat) →
    s.channel = bursts.flatMap answerOk ++ more →
    s.schedule = okPullTurns len bursts →
    ∃ t : State, Host.Core.run Sys2Proof.core (okPullTurns len bursts).length s = .next t ∧
      t.csr = { s.csr with done := true, result := .ok } ∧ t.eng.state = .idle ∧
      t.eng.len = len ∧ t.eng.produced = len ∧ t.channel = more ∧ t.schedule = [] ∧
      holdsSamples t.outmem s.csr.bufBase (bursts.flatten.map s.csr.convert) ∧
      keepsOutside s.outmem t.outmem s.csr.bufBase len.toNat

/-- On the schedule `okPullTurns`, in which no turn stalls and the HOST takes no step after the PULL (log 1):
the reads of a pull ask, one after the other, for the Samples that remain, at most BURST_CAP; if each delivers all it is asked
for, their number is the number of Samples over BURST_CAP, rounded up (R221, R236). The requests are read off the model's trace
(log 3). -/
def Obligations.PullRequestsTheRemainingSamples : Prop :=
  ∀ (s : State) (len : Count) (bursts : List (List Frame)) (more : List Beat),
    s.Inv → s.eng.state = .idle →
    len.toNat = 2 * bursts.flatten.length →
    (∃ l x, bursts.getLast? = some (x :: l)) →
    (∀ b ∈ bursts, b.length ≤ s.csr.burstCap.toNat) →
    s.channel = bursts.flatMap answerOk ++ more →
    s.schedule = okPullTurns len bursts →
    let cap := s.csr.burstCap.toNat
    let sizes := requestSizes cap (len.toNat / 2) (bursts.map List.length)
    ∃ t : State, Host.Core.run Sys2Proof.core (okPullTurns len bursts).length s = .next t ∧
      t.requests = s.requests ++ sizes ∧
      (bursts.map List.length = sizes → bursts.length = (len.toNat / 2 + cap - 1) / cap)

/-- On the schedule `faultPullTurns`, in which no turn stalls and the HOST takes no step after the PULL (log 1):
a pull whose last read ends Fault ends with FAULT: PRODUCED counts the prefix that the earlier Ok reads wrote, the prefix holds
their Samples, and every other byte is untouched (R225, R233). -/
def Obligations.FaultedPullKeepsExactlyTheWrittenPrefix : Prop :=
  ∀ (s : State) (len : Count) (bursts : List (List Frame)) (last : List Frame) (more : List Beat),
    s.Inv → s.eng.state = .idle → len.toNat % 2 = 0 →
    2 * (bursts.flatten.length + last.length) ≤ len.toNat → 2 * bursts.flatten.length < len.toNat →
    (∀ b ∈ bursts, b.length ≤ s.csr.burstCap.toNat) → last.length ≤ s.csr.burstCap.toNat →
    s.channel = bursts.flatMap answerOk ++ (answerFault last ++ more) →
    s.schedule = faultPullTurns len bursts last →
    ∃ t : State, Host.Core.run Sys2Proof.core (faultPullTurns len bursts last).length s = .next t ∧
      t.csr = { s.csr with done := true, result := .fault } ∧ t.eng.state = .idle ∧
      t.eng.len = len ∧ t.eng.produced.toNat = 2 * bursts.flatten.length ∧ t.channel = more ∧ t.schedule = [] ∧
      holdsSamples t.outmem s.csr.bufBase (bursts.flatten.map s.csr.convert) ∧
      keepsOutside s.outmem t.outmem s.csr.bufBase (2 * bursts.flatten.length)

/-- R229: a read that ends Ok with no Frame makes no progress, and the same request is issued again. -/
def Obligations.EmptyReadReissuesTheSameRequest : Prop :=
  ∀ (s : State) (a1 a2 a3 : Bool) (b : Beat) (more : List Beat) (rest : List Event),
    s.Inv → s.eng.state = .issue → s.eng.produced ≠ s.eng.len →
    s.channel = b :: more → b.extractLsb' 32 2 = 2 →
    s.schedule = [.engine a1, .source, .engine a2, .engine a3] ++ rest →
    ∃ (c : Count) (t : State), Host.Core.run Sys2Proof.core 4 s = .next t ∧
      c.toNat = min ((s.eng.len.toNat - s.eng.produced.toNat) / 2) s.csr.burstCap.toNat ∧
      t.trace = .req c :: .req c :: s.trace ∧ t.eng = { s.eng with req := c, k := 0, i := 0, state := .wait } ∧
      t.csr = s.csr ∧ t.outmem = s.outmem ∧ t.burst = s.burst ∧ t.channel = more ∧ t.schedule = rest

/-- The stuck pulls of R234 (a), (b) and (d): while the SOURCE sends no End beat, or offers a Frame beyond the request, or OUTMEM
accepts no write, no number of turns of the ENGINE and the SOURCE changes anything. -/
def Obligations.StuckPullsHold : Prop :=
  ∀ (n : Nat) (s : State) (turns : List Event), turns.length = n → s.schedule = turns →
    ((s.eng.state = .wait ∧ (∀ e ∈ turns, e = .source ∨ ∃ a, e = .engine a) ∧
        (s.channel = [] ∨ ∃ b more, s.channel = b :: more ∧ b.getLsbD 33 = false ∧ s.eng.k = s.eng.req)) ∨
      (s.eng.state = .write ∧ s.eng.i.toNat < s.eng.k.toNat ∧ ∀ e ∈ turns, e = .source ∨ e = .engine false)) →
    Host.Core.run Sys2Proof.core n s = .next { s with schedule := [] }
end

