-- ==== Sys2Proof/Laws/Memory.lean ====
section
/-! SUPPORT. Sys2Proof/Laws/Memory.lean: the laws of cell lists and of OUTMEM: read after write, what a write leaves alone, and
that every operation keeps the canonical form. -/

namespace Sys2Proof.Machine

open Sys2Proof

/-! ## Cells -/

@[simp] theorem cellLookup_insert_self {α : Type} (k : Nat) (v : α) (m : List (Nat × α)) :
    cellLookup k (cellInsert k v m) = some v := by
  induction m with
  | nil => simp [cellInsert, cellLookup]
  | cons c rest ih =>
    obtain ⟨a, x⟩ := c
    by_cases h1 : k < a
    · simp [cellInsert, cellLookup, h1]
    · by_cases h2 : a = k
      · simp [cellInsert, cellLookup, h2]
      · simp [cellInsert, cellLookup, h1, h2, ih]

theorem cellLookup_insert_ne {α : Type} {j k : Nat} (v : α) (m : List (Nat × α)) (h : j ≠ k) :
    cellLookup j (cellInsert k v m) = cellLookup j m := by
  induction m with
  | nil => simp [cellInsert, cellLookup, Ne.symm h]
  | cons c rest ih =>
    obtain ⟨a, x⟩ := c
    by_cases h1 : k < a
    · simp [cellInsert, cellLookup, h1, Ne.symm h]
    · by_cases h2 : a = k
      · subst h2; simp [cellInsert, cellLookup, Ne.symm h]
      · by_cases h3 : a = j
        · subst h3; simp [cellInsert, cellLookup, h1, h2]
        · simp [cellInsert, cellLookup, h1, h2, h3, ih]

@[simp] theorem cellLookup_erase_self {α : Type} (k : Nat) (m : List (Nat × α)) :
    cellLookup k (cellErase k m) = none := by
  induction m with
  | nil => rfl
  | cons c rest ih =>
    obtain ⟨a, x⟩ := c
    by_cases h : a = k <;> simp [cellErase, cellLookup, h, ih]

theorem cellLookup_erase_ne {α : Type} {j k : Nat} (m : List (Nat × α)) (h : j ≠ k) :
    cellLookup j (cellErase k m) = cellLookup j m := by
  induction m with
  | nil => rfl
  | cons c rest ih =>
    obtain ⟨a, x⟩ := c
    by_cases h1 : a = k
    · subst h1; simp [cellErase, cellLookup, Ne.symm h, ih]
    · by_cases h2 : a = j
      · subst h2; simp [cellErase, cellLookup, h1]
      · simp [cellErase, cellLookup, h1, h2, ih]

theorem mem_cellInsert {α : Type} {k : Nat} {v : α} {c : Nat × α} {m : List (Nat × α)}
    (h : c ∈ cellInsert k v m) : c = (k, v) ∨ c ∈ m := by
  induction m with
  | nil => exact Or.inl (by simpa [cellInsert] using h)
  | cons d rest ih =>
    obtain ⟨a, x⟩ := d
    unfold cellInsert at h
    split at h
    · simpa using h
    · split at h
      · rcases List.mem_cons.mp h with h | h
        · exact Or.inl h
        · exact Or.inr (List.mem_cons_of_mem _ h)
      · rcases List.mem_cons.mp h with h | h
        · exact Or.inr (by simp [h])
        · rcases ih h with h | h
          · exact Or.inl h
          · exact Or.inr (List.mem_cons_of_mem _ h)

theorem mem_cellErase {α : Type} {k : Nat} {c : Nat × α} {m : List (Nat × α)} (h : c ∈ cellErase k m) : c ∈ m := by
  induction m with
  | nil => exact h
  | cons d rest ih =>
    obtain ⟨a, x⟩ := d
    unfold cellErase at h
    split at h
    · exact List.mem_cons_of_mem _ (ih h)
    · rcases List.mem_cons.mp h with h | h
      · simp [h]
      · exact List.mem_cons_of_mem _ (ih h)

theorem cellsRising_insert {α : Type} (k : Nat) (v : α) {m : List (Nat × α)} (h : cellsRising m) :
    cellsRising (cellInsert k v m) := by
  induction m with
  | nil => simp [cellInsert, cellsRising]
  | cons d rest ih =>
    obtain ⟨a, x⟩ := d
    obtain ⟨hlt, hrest⟩ := List.pairwise_cons.mp h
    unfold cellInsert
    split
    · rename_i hk
      refine List.pairwise_cons.mpr ⟨fun c hc => ?_, h⟩
      rcases List.mem_cons.mp hc with hc | hc
      · simpa [hc] using hk
      · exact Nat.lt_trans hk (hlt c hc)
    · split
      · rename_i hk
        exact List.pairwise_cons.mpr ⟨fun c hc => by simpa [← hk] using hlt c hc, hrest⟩
      · refine List.pairwise_cons.mpr ⟨fun c hc => ?_, ih hrest⟩
        rcases mem_cellInsert hc with hc | hc
        · simp only [hc]; omega
        · exact hlt c hc

theorem cellsRising_erase {α : Type} (k : Nat) {m : List (Nat × α)} (h : cellsRising m) :
    cellsRising (cellErase k m) := by
  induction m with
  | nil => exact h
  | cons d rest ih =>
    obtain ⟨a, x⟩ := d
    obtain ⟨hlt, hrest⟩ := List.pairwise_cons.mp h
    unfold cellErase
    split
    · exact ih hrest
    · exact List.pairwise_cons.mpr ⟨fun c hc => hlt c (mem_cellErase hc), ih hrest⟩

/-! ## OUTMEM -/

@[simp] theorem Memory.read_write_self (m : List Host.Cell) (a : Addr) (b : Byte) :
    Memory.read (Memory.write m a b) a = b := by
  unfold Memory.read Memory.write
  split
  · rename_i h; simp [h]
  · simp

theorem Memory.read_write_ne {a x : Addr} (m : List Host.Cell) (b : Byte) (h : x ≠ a) :
    Memory.read (Memory.write m a b) x = Memory.read m x := by
  have hn : x.toNat ≠ a.toNat := fun e => h (BitVec.eq_of_toNat_eq e)
  unfold Memory.read Memory.write
  split
  · rw [cellLookup_erase_ne _ hn]
  · rw [cellLookup_insert_ne _ _ hn]

/-- A byte written keeps the canonical form. -/
theorem Memory.wf_write (a : Addr) (b : Byte) {m : List Host.Cell} (h : Memory.wf m) :
    Memory.wf (Memory.write m a b) := by
  unfold Memory.write
  split
  · exact ⟨cellsRising_erase _ h.1, fun c hc => h.2 c (mem_cellErase hc)⟩
  · rename_i hb
    refine ⟨cellsRising_insert _ _ h.1, fun c hc => ?_⟩
    rcases mem_cellInsert hc with hc | hc
    · subst hc; exact ⟨a.isLt, hb⟩
    · exact h.2 c hc

/-- Bytes written keep the canonical form. -/
theorem Memory.wf_writeBytes (bs : List Byte) (a : Addr) {m : List Host.Cell} (h : Memory.wf m) :
    Memory.wf (Memory.writeBytes m a bs) := by
  induction bs generalizing m a with
  | nil => exact h
  | cons b bs ih => exact ih (a + 1) (Memory.wf_write a b h)

/-- A Sample written keeps the canonical form. -/
theorem Memory.wf_writeSample (a : Addr) (x : Sample) {m : List Host.Cell} (h : Memory.wf m) :
    Memory.wf (Memory.writeSample m a x) := Memory.wf_writeBytes _ a h

/-- The empty memory is canonical. -/
theorem Memory.wf_nil : Memory.wf [] := by simp [Memory.wf, cellsRising]

theorem addr_succ_ne (a : Addr) : a + 1 ≠ a := by bv_omega

/-- The two writes a Sample is. -/
theorem Memory.writeSample_eq (m : List Host.Cell) (a : Addr) (x : Sample) :
    Memory.writeSample m a x =
      Memory.write (Memory.write m a (x.extractLsb' 0 8)) (a + 1) (x.extractLsb' 8 8) := rfl

/-- A byte away from the Sample reads as before. -/
theorem Memory.read_writeSample_ne {a y : Addr} (m : List Host.Cell) (x : Sample) (h0 : y ≠ a) (h1 : y ≠ a + 1) :
    Memory.read (Memory.writeSample m a x) y = Memory.read m y := by
  rw [Memory.writeSample_eq, Memory.read_write_ne _ _ h1, Memory.read_write_ne _ _ h0]

/-! ## The Burst buffer -/

theorem burst_bounded_insert {k cap : Nat} (d : Frame) {m : List (Nat × Frame)} (hk : k < cap)
    (h : cellsRising m ∧ ∀ c ∈ m, c.1 < cap) :
    cellsRising (cellInsert k d m) ∧ ∀ c ∈ cellInsert k d m, c.1 < cap := by
  refine ⟨cellsRising_insert _ _ h.1, fun c hc => ?_⟩
  rcases mem_cellInsert hc with hc | hc
  · simpa [hc] using hk
  · exact h.2 c hc

end Sys2Proof.Machine
end

