-- ==== Sys2Proof/Laws/State.lean ====
section
/-! SUPPORT. Sys2Proof/Laws/State.lean: what each update of the state leaves in each field, by rfl, so that no later proof
unfolds a record update. -/

namespace Sys2Proof.Machine

open Sys2Proof

/-! ## emit -/

@[simp] theorem emit_csr (s : State) (o : Observation) : (s.emit o).csr = s.csr := rfl
@[simp] theorem emit_eng (s : State) (o : Observation) : (s.emit o).eng = s.eng := rfl
@[simp] theorem emit_burst (s : State) (o : Observation) : (s.emit o).burst = s.burst := rfl
@[simp] theorem emit_outmem (s : State) (o : Observation) : (s.emit o).outmem = s.outmem := rfl
@[simp] theorem emit_channel (s : State) (o : Observation) : (s.emit o).channel = s.channel := rfl
@[simp] theorem emit_host (s : State) (o : Observation) : (s.emit o).host = s.host := rfl
@[simp] theorem emit_schedule (s : State) (o : Observation) : (s.emit o).schedule = s.schedule := rfl
@[simp] theorem emit_trace (s : State) (o : Observation) : (s.emit o).trace = o :: s.trace := rfl
@[simp] theorem emit_resets (s : State) (o : Observation) : (s.emit o).resets = s.resets := rfl
@[simp] theorem emit_freeCount (s : State) (o : Observation) : (s.emit o).freeCount = s.freeCount := rfl

/-! ## acquire -/

@[simp] theorem acquire_csr (s : State) : s.acquire.csr = s.csr := rfl
@[simp] theorem acquire_eng (s : State) : s.acquire.eng = s.eng := rfl
@[simp] theorem acquire_burst (s : State) : s.acquire.burst = s.burst := rfl
@[simp] theorem acquire_outmem (s : State) : s.acquire.outmem = s.outmem := rfl
@[simp] theorem acquire_channel (s : State) : s.acquire.channel = s.channel := rfl
@[simp] theorem acquire_host (s : State) : s.acquire.host = s.host.acquire s.outmem := rfl
@[simp] theorem acquire_schedule (s : State) : s.acquire.schedule = s.schedule := rfl
@[simp] theorem acquire_trace (s : State) : s.acquire.trace = s.trace := rfl
@[simp] theorem acquire_resets (s : State) : s.acquire.resets = s.resets := rfl
@[simp] theorem acquire_freeCount (s : State) : s.acquire.freeCount = s.freeCount := rfl

/-! ## maintain -/

@[simp] theorem maintain_csr (s : State) : s.maintain.csr = s.csr := rfl
@[simp] theorem maintain_eng (s : State) : s.maintain.eng = s.eng := rfl
@[simp] theorem maintain_burst (s : State) : s.maintain.burst = s.burst := rfl
@[simp] theorem maintain_outmem (s : State) : s.maintain.outmem = s.outmem := rfl
@[simp] theorem maintain_channel (s : State) : s.maintain.channel = s.channel := rfl
@[simp] theorem maintain_host (s : State) : s.maintain.host = s.host.maintain := rfl
@[simp] theorem maintain_schedule (s : State) : s.maintain.schedule = s.schedule := rfl
@[simp] theorem maintain_trace (s : State) : s.maintain.trace = s.trace := rfl
@[simp] theorem maintain_resets (s : State) : s.maintain.resets = s.resets := rfl
@[simp] theorem maintain_freeCount (s : State) : s.maintain.freeCount = s.freeCount := rfl

/-! ## flagProtocolError -/

@[simp] theorem flagProtocolError_csr (s : State) : s.flagProtocolError.csr = { s.csr with protoErr := true } := rfl
@[simp] theorem flagProtocolError_eng (s : State) : s.flagProtocolError.eng = s.eng := rfl
@[simp] theorem flagProtocolError_burst (s : State) : s.flagProtocolError.burst = s.burst := rfl
@[simp] theorem flagProtocolError_outmem (s : State) : s.flagProtocolError.outmem = s.outmem := rfl
@[simp] theorem flagProtocolError_channel (s : State) : s.flagProtocolError.channel = s.channel := rfl
@[simp] theorem flagProtocolError_host (s : State) : s.flagProtocolError.host = s.host := rfl
@[simp] theorem flagProtocolError_schedule (s : State) : s.flagProtocolError.schedule = s.schedule := rfl
@[simp] theorem flagProtocolError_trace (s : State) : s.flagProtocolError.trace = s.trace := rfl
@[simp] theorem flagProtocolError_resets (s : State) : s.flagProtocolError.resets = s.resets := rfl
@[simp] theorem flagProtocolError_freeCount (s : State) : s.flagProtocolError.freeCount = s.freeCount := rfl

/-! ## release -/

@[simp] theorem release_csr (s : State) :
    s.release.csr = { s.csr with done := false, result := .none, protoErr := false } := rfl
@[simp] theorem release_eng (s : State) : s.release.eng = s.eng := rfl
@[simp] theorem release_burst (s : State) : s.release.burst = s.burst := rfl
@[simp] theorem release_outmem (s : State) : s.release.outmem = s.outmem := rfl
@[simp] theorem release_channel (s : State) : s.release.channel = s.channel := rfl
@[simp] theorem release_host (s : State) : s.release.host = s.host := rfl
@[simp] theorem release_schedule (s : State) : s.release.schedule = s.schedule := rfl
@[simp] theorem release_trace (s : State) : s.release.trace = s.trace := rfl
@[simp] theorem release_resets (s : State) : s.release.resets = s.resets := rfl
@[simp] theorem release_freeCount (s : State) : s.release.freeCount = s.freeCount := rfl

/-! ## complete -/

@[simp] theorem complete_csr (s : State) (r : Result) :
    (s.complete r).csr = { s.csr with result := r, done := true } := rfl
@[simp] theorem complete_eng (s : State) (r : Result) : (s.complete r).eng = { s.eng with state := .idle } := rfl
@[simp] theorem complete_burst (s : State) (r : Result) : (s.complete r).burst = s.burst := rfl
@[simp] theorem complete_outmem (s : State) (r : Result) : (s.complete r).outmem = s.outmem := rfl
@[simp] theorem complete_channel (s : State) (r : Result) : (s.complete r).channel = s.channel := rfl
@[simp] theorem complete_host (s : State) (r : Result) : (s.complete r).host = s.host := rfl
@[simp] theorem complete_schedule (s : State) (r : Result) : (s.complete r).schedule = s.schedule := rfl
@[simp] theorem complete_trace (s : State) (r : Result) : (s.complete r).trace = s.trace := rfl
@[simp] theorem complete_resets (s : State) (r : Result) : (s.complete r).resets = s.resets := rfl
@[simp] theorem complete_freeCount (s : State) (r : Result) : (s.complete r).freeCount = s.freeCount := rfl

/-! ## setBufBase -/

@[simp] theorem setBufBase_csr (s : State) (w : Word) : (s.setBufBase w).csr = { s.csr with bufBase := w } := rfl
@[simp] theorem setBufBase_eng (s : State) (w : Word) : (s.setBufBase w).eng = s.eng := rfl
@[simp] theorem setBufBase_burst (s : State) (w : Word) : (s.setBufBase w).burst = s.burst := rfl
@[simp] theorem setBufBase_outmem (s : State) (w : Word) : (s.setBufBase w).outmem = s.outmem := rfl
@[simp] theorem setBufBase_channel (s : State) (w : Word) : (s.setBufBase w).channel = s.channel := rfl
@[simp] theorem setBufBase_host (s : State) (w : Word) : (s.setBufBase w).host = s.host := rfl
@[simp] theorem setBufBase_schedule (s : State) (w : Word) : (s.setBufBase w).schedule = s.schedule := rfl
@[simp] theorem setBufBase_trace (s : State) (w : Word) : (s.setBufBase w).trace = s.trace := rfl
@[simp] theorem setBufBase_resets (s : State) (w : Word) : (s.setBufBase w).resets = s.resets := rfl
@[simp] theorem setBufBase_freeCount (s : State) (w : Word) : (s.setBufBase w).freeCount = s.freeCount := rfl

/-! ## setGain -/

@[simp] theorem setGain_csr (s : State) (w : Word) :
    (s.setGain w).csr = { s.csr with gain := w.extractLsb' 0 16, shift := w.extractLsb' 16 4 } := rfl
@[simp] theorem setGain_eng (s : State) (w : Word) : (s.setGain w).eng = s.eng := rfl
@[simp] theorem setGain_burst (s : State) (w : Word) : (s.setGain w).burst = s.burst := rfl
@[simp] theorem setGain_outmem (s : State) (w : Word) : (s.setGain w).outmem = s.outmem := rfl
@[simp] theorem setGain_channel (s : State) (w : Word) : (s.setGain w).channel = s.channel := rfl
@[simp] theorem setGain_host (s : State) (w : Word) : (s.setGain w).host = s.host := rfl
@[simp] theorem setGain_schedule (s : State) (w : Word) : (s.setGain w).schedule = s.schedule := rfl
@[simp] theorem setGain_trace (s : State) (w : Word) : (s.setGain w).trace = s.trace := rfl
@[simp] theorem setGain_resets (s : State) (w : Word) : (s.setGain w).resets = s.resets := rfl
@[simp] theorem setGain_freeCount (s : State) (w : Word) : (s.setGain w).freeCount = s.freeCount := rfl

/-! ## setClamp -/

@[simp] theorem setClamp_csr (s : State) (w : Word) :
    (s.setClamp w).csr = { s.csr with clampLo := w.extractLsb' 0 16, clampHi := w.extractLsb' 16 16 } := rfl
@[simp] theorem setClamp_eng (s : State) (w : Word) : (s.setClamp w).eng = s.eng := rfl
@[simp] theorem setClamp_burst (s : State) (w : Word) : (s.setClamp w).burst = s.burst := rfl
@[simp] theorem setClamp_outmem (s : State) (w : Word) : (s.setClamp w).outmem = s.outmem := rfl
@[simp] theorem setClamp_channel (s : State) (w : Word) : (s.setClamp w).channel = s.channel := rfl
@[simp] theorem setClamp_host (s : State) (w : Word) : (s.setClamp w).host = s.host := rfl
@[simp] theorem setClamp_schedule (s : State) (w : Word) : (s.setClamp w).schedule = s.schedule := rfl
@[simp] theorem setClamp_trace (s : State) (w : Word) : (s.setClamp w).trace = s.trace := rfl
@[simp] theorem setClamp_resets (s : State) (w : Word) : (s.setClamp w).resets = s.resets := rfl
@[simp] theorem setClamp_freeCount (s : State) (w : Word) : (s.setClamp w).freeCount = s.freeCount := rfl

/-! ## setBurst -/

@[simp] theorem setBurst_csr (s : State) (j : Count) (d : Frame) : (s.setBurst j d).csr = s.csr := rfl
@[simp] theorem setBurst_eng (s : State) (j : Count) (d : Frame) : (s.setBurst j d).eng = s.eng := rfl
@[simp] theorem setBurst_burst (s : State) (j : Count) (d : Frame) :
    (s.setBurst j d).burst = cellInsert j.toNat d s.burst := rfl
@[simp] theorem setBurst_outmem (s : State) (j : Count) (d : Frame) : (s.setBurst j d).outmem = s.outmem := rfl
@[simp] theorem setBurst_channel (s : State) (j : Count) (d : Frame) : (s.setBurst j d).channel = s.channel := rfl
@[simp] theorem setBurst_host (s : State) (j : Count) (d : Frame) : (s.setBurst j d).host = s.host := rfl
@[simp] theorem setBurst_schedule (s : State) (j : Count) (d : Frame) : (s.setBurst j d).schedule = s.schedule := rfl
@[simp] theorem setBurst_trace (s : State) (j : Count) (d : Frame) : (s.setBurst j d).trace = s.trace := rfl
@[simp] theorem setBurst_resets (s : State) (j : Count) (d : Frame) : (s.setBurst j d).resets = s.resets := rfl
@[simp] theorem setBurst_freeCount (s : State) (j : Count) (d : Frame) : (s.setBurst j d).freeCount = s.freeCount := rfl

/-! ## takeFrame -/

@[simp] theorem takeFrame_csr (s : State) (d : Frame) : (s.takeFrame d).csr = s.csr := rfl
@[simp] theorem takeFrame_eng (s : State) (d : Frame) : (s.takeFrame d).eng = { s.eng with k := s.eng.k + 1 } := rfl
@[simp] theorem takeFrame_burst (s : State) (d : Frame) :
    (s.takeFrame d).burst = cellInsert s.eng.k.toNat d s.burst := rfl
@[simp] theorem takeFrame_outmem (s : State) (d : Frame) : (s.takeFrame d).outmem = s.outmem := rfl
@[simp] theorem takeFrame_channel (s : State) (d : Frame) : (s.takeFrame d).channel = s.channel := rfl
@[simp] theorem takeFrame_host (s : State) (d : Frame) : (s.takeFrame d).host = s.host := rfl
@[simp] theorem takeFrame_schedule (s : State) (d : Frame) : (s.takeFrame d).schedule = s.schedule := rfl
@[simp] theorem takeFrame_trace (s : State) (d : Frame) : (s.takeFrame d).trace = s.trace := rfl
@[simp] theorem takeFrame_resets (s : State) (d : Frame) : (s.takeFrame d).resets = s.resets := rfl
@[simp] theorem takeFrame_freeCount (s : State) (d : Frame) : (s.takeFrame d).freeCount = s.freeCount := rfl

/-! ## endRead -/

@[simp] theorem endRead_csr (s : State) : s.endRead.csr = s.csr := rfl
@[simp] theorem endRead_eng (s : State) : s.endRead.eng = { s.eng with i := 0, state := .write } := rfl
@[simp] theorem endRead_burst (s : State) : s.endRead.burst = s.burst := rfl
@[simp] theorem endRead_outmem (s : State) : s.endRead.outmem = s.outmem := rfl
@[simp] theorem endRead_channel (s : State) : s.endRead.channel = s.channel := rfl
@[simp] theorem endRead_host (s : State) : s.endRead.host = s.host := rfl
@[simp] theorem endRead_schedule (s : State) : s.endRead.schedule = s.schedule := rfl
@[simp] theorem endRead_trace (s : State) : s.endRead.trace = s.trace := rfl
@[simp] theorem endRead_resets (s : State) : s.endRead.resets = s.resets := rfl
@[simp] theorem endRead_freeCount (s : State) : s.endRead.freeCount = s.freeCount := rfl

/-! ## writeSample -/

@[simp] theorem writeSample_csr (s : State) : s.writeSample.csr = s.csr := rfl
@[simp] theorem writeSample_eng (s : State) :
    s.writeSample.eng = { s.eng with produced := s.eng.produced + 2, i := s.eng.i + 1 } := rfl
@[simp] theorem writeSample_burst (s : State) : s.writeSample.burst = s.burst := rfl
@[simp] theorem writeSample_outmem (s : State) :
    s.writeSample.outmem = Memory.writeSample s.outmem s.cursorAddr (s.csr.convert (s.burstEntry s.eng.i)) := rfl
@[simp] theorem writeSample_channel (s : State) : s.writeSample.channel = s.channel := rfl
@[simp] theorem writeSample_host (s : State) :
    s.writeSample.host = s.host.blockWrites s.cursorAddr (s.csr.convert (s.burstEntry s.eng.i)) := rfl
@[simp] theorem writeSample_schedule (s : State) : s.writeSample.schedule = s.schedule := rfl
@[simp] theorem writeSample_trace (s : State) :
    s.writeSample.trace = .memwr s.cursorAddr (s.csr.convert (s.burstEntry s.eng.i)) :: s.trace := rfl
@[simp] theorem writeSample_resets (s : State) : s.writeSample.resets = s.resets := rfl
@[simp] theorem writeSample_freeCount (s : State) : s.writeSample.freeCount = s.freeCount := rfl

/-! ## writeEnd -/

@[simp] theorem writeEnd_csr (s : State) : s.writeEnd.csr = s.csr := rfl
@[simp] theorem writeEnd_eng (s : State) : s.writeEnd.eng = { s.eng with state := .issue } := rfl
@[simp] theorem writeEnd_burst (s : State) : s.writeEnd.burst = s.burst := rfl
@[simp] theorem writeEnd_outmem (s : State) : s.writeEnd.outmem = s.outmem := rfl
@[simp] theorem writeEnd_channel (s : State) : s.writeEnd.channel = s.channel := rfl
@[simp] theorem writeEnd_host (s : State) : s.writeEnd.host = s.host := rfl
@[simp] theorem writeEnd_schedule (s : State) : s.writeEnd.schedule = s.schedule := rfl
@[simp] theorem writeEnd_trace (s : State) : s.writeEnd.trace = s.trace := rfl
@[simp] theorem writeEnd_resets (s : State) : s.writeEnd.resets = s.resets := rfl
@[simp] theorem writeEnd_freeCount (s : State) : s.writeEnd.freeCount = s.freeCount := rfl

/-! ## memRead -/

@[simp] theorem memRead_csr (s : State) (a : Addr) (n : Nat) : (s.memRead a n).csr = s.csr := rfl
@[simp] theorem memRead_eng (s : State) (a : Addr) (n : Nat) : (s.memRead a n).eng = s.eng := rfl
@[simp] theorem memRead_burst (s : State) (a : Addr) (n : Nat) : (s.memRead a n).burst = s.burst := rfl
@[simp] theorem memRead_outmem (s : State) (a : Addr) (n : Nat) : (s.memRead a n).outmem = s.outmem := rfl
@[simp] theorem memRead_channel (s : State) (a : Addr) (n : Nat) : (s.memRead a n).channel = s.channel := rfl
@[simp] theorem memRead_host (s : State) (a : Addr) (n : Nat) : (s.memRead a n).host = s.host := rfl
@[simp] theorem memRead_schedule (s : State) (a : Addr) (n : Nat) : (s.memRead a n).schedule = s.schedule := rfl
@[simp] theorem memRead_trace (s : State) (a : Addr) (n : Nat) :
    (s.memRead a n).trace = .hostData (leValue (s.hostBytes s.freeCount a n)) :: s.trace := rfl
@[simp] theorem memRead_resets (s : State) (a : Addr) (n : Nat) : (s.memRead a n).resets = s.resets := rfl
@[simp] theorem memRead_freeCount (s : State) (a : Addr) (n : Nat) : (s.memRead a n).freeCount = s.freeCount + n := rfl

/-! ## memWrite -/

@[simp] theorem memWrite_csr (s : State) (a : Addr) (b : Byte) : (s.memWrite a b).csr = s.csr := rfl
@[simp] theorem memWrite_eng (s : State) (a : Addr) (b : Byte) : (s.memWrite a b).eng = s.eng := rfl
@[simp] theorem memWrite_burst (s : State) (a : Addr) (b : Byte) : (s.memWrite a b).burst = s.burst := rfl
@[simp] theorem memWrite_outmem (s : State) (a : Addr) (b : Byte) :
    (s.memWrite a b).outmem = Memory.write s.outmem a b := rfl
@[simp] theorem memWrite_channel (s : State) (a : Addr) (b : Byte) : (s.memWrite a b).channel = s.channel := rfl
@[simp] theorem memWrite_host (s : State) (a : Addr) (b : Byte) : (s.memWrite a b).host = s.host.ownWrite a b := rfl
@[simp] theorem memWrite_schedule (s : State) (a : Addr) (b : Byte) : (s.memWrite a b).schedule = s.schedule := rfl
@[simp] theorem memWrite_trace (s : State) (a : Addr) (b : Byte) : (s.memWrite a b).trace = s.trace := rfl
@[simp] theorem memWrite_resets (s : State) (a : Addr) (b : Byte) : (s.memWrite a b).resets = s.resets := rfl
@[simp] theorem memWrite_freeCount (s : State) (a : Addr) (b : Byte) : (s.memWrite a b).freeCount = s.freeCount := rfl

/-! ## onReset -/

@[simp] theorem onReset_csr (s : State) : s.onReset.csr = { Csr.reset with burstCap := s.csr.burstCap } := rfl
@[simp] theorem onReset_eng (s : State) : s.onReset.eng = Engine.reset := rfl
@[simp] theorem onReset_burst (s : State) : s.onReset.burst = [] := rfl
@[simp] theorem onReset_outmem (s : State) : s.onReset.outmem = s.outmem := rfl
@[simp] theorem onReset_channel (s : State) : s.onReset.channel = s.channel := rfl
@[simp] theorem onReset_host (s : State) : s.onReset.host = s.host := rfl
@[simp] theorem onReset_schedule (s : State) : s.onReset.schedule = s.schedule := rfl
@[simp] theorem onReset_trace (s : State) : s.onReset.trace = s.trace := rfl
@[simp] theorem onReset_resets (s : State) : s.onReset.resets = s.resets + 1 := rfl
@[simp] theorem onReset_freeCount (s : State) : s.onReset.freeCount = s.freeCount := rfl

/-! ## popped -/

@[simp] theorem popped_csr (s : State) : s.popped.csr = s.csr := rfl
@[simp] theorem popped_eng (s : State) : s.popped.eng = s.eng := rfl
@[simp] theorem popped_burst (s : State) : s.popped.burst = s.burst := rfl
@[simp] theorem popped_outmem (s : State) : s.popped.outmem = s.outmem := rfl
@[simp] theorem popped_channel (s : State) : s.popped.channel = s.channel := rfl
@[simp] theorem popped_host (s : State) : s.popped.host = s.host := rfl
@[simp] theorem popped_schedule (s : State) : s.popped.schedule = s.schedule.tail := rfl
@[simp] theorem popped_trace (s : State) : s.popped.trace = s.trace := rfl
@[simp] theorem popped_resets (s : State) : s.popped.resets = s.resets := rfl
@[simp] theorem popped_freeCount (s : State) : s.popped.freeCount = s.freeCount := rfl

/-! ## observeDone, whose acquire depends on DONE -/

@[simp] theorem observeDone_csr (s : State) : s.observeDone.csr = s.csr := by
  unfold State.observeDone; split <;> rfl
@[simp] theorem observeDone_eng (s : State) : s.observeDone.eng = s.eng := by
  unfold State.observeDone; split <;> rfl
@[simp] theorem observeDone_burst (s : State) : s.observeDone.burst = s.burst := by
  unfold State.observeDone; split <;> rfl
@[simp] theorem observeDone_outmem (s : State) : s.observeDone.outmem = s.outmem := by
  unfold State.observeDone; split <;> rfl
@[simp] theorem observeDone_channel (s : State) : s.observeDone.channel = s.channel := by
  unfold State.observeDone; split <;> rfl
@[simp] theorem observeDone_schedule (s : State) : s.observeDone.schedule = s.schedule := by
  unfold State.observeDone; split <;> rfl
@[simp] theorem observeDone_trace (s : State) : s.observeDone.trace = s.trace := by
  unfold State.observeDone; split <;> rfl
@[simp] theorem observeDone_resets (s : State) : s.observeDone.resets = s.resets := by
  unfold State.observeDone; split <;> rfl
@[simp] theorem observeDone_freeCount (s : State) : s.observeDone.freeCount = s.freeCount := by
  unfold State.observeDone; split <;> rfl

@[simp] theorem observeDone_host (s : State) :
    s.observeDone.host = if s.csr.done then s.host.acquire s.outmem else s.host := by
  unfold State.observeDone; split <;> rfl

end Sys2Proof.Machine
end

