-- ==== Sys2Proof/Laws/HostSide.lean ====
section
/-! SUPPORT. Sys2Proof/Laws/HostSide.lean: the laws of the HOST's own view of OUTMEM: what each update leaves in each field, which
values a read may return, and that every update keeps the view, the writes still to be seen and OUTMEM together. -/

namespace Sys2Proof.Machine

open Sys2Proof

/-! ## Byte writes -/

@[simp] theorem writtenAt_nil (a : Addr) : writtenAt [] a = [] := rfl

theorem writtenAt_append (ws vs : List Host.Cell) (a : Addr) :
    writtenAt (ws ++ vs) a = writtenAt ws a ++ writtenAt vs a := List.filterMap_append

@[simp] theorem lastAt_nil (m : List Host.Cell) (a : Addr) : lastAt m [] a = Memory.read m a := rfl

/-- More writes act on what the earlier ones left. -/
theorem lastAt_append (m ws vs : List Host.Cell) (a : Addr) :
    lastAt m (ws ++ vs) a = ((writtenAt vs a).getLast?).getD (lastAt m ws a) := by
  rw [lastAt, writtenAt_append, List.getLast?_append]
  cases (writtenAt vs a).getLast? <;> rfl

/-- The last value is the memory's own or one that was written. -/
theorem lastAt_mem (m ws : List Host.Cell) (a : Addr) : lastAt m ws a ∈ Memory.read m a :: writtenAt ws a := by
  rw [lastAt]
  cases h : (writtenAt ws a).getLast? with
  | none => exact List.mem_cons_self
  | some v => exact List.mem_cons_of_mem _ (List.mem_of_getLast? h)

theorem writtenAt_drop_self (ws : List Host.Cell) (a : Addr) :
    writtenAt (ws.filter (fun c => decide (c.1 ≠ a.toNat))) a = [] := by
  simp only [writtenAt, List.filterMap_eq_nil_iff, List.mem_filter, decide_eq_true_eq]
  exact fun c hc => if_neg hc.2

theorem writtenAt_drop_ne {a y : Addr} (ws : List Host.Cell) (h : y ≠ a) :
    writtenAt (ws.filter (fun c => decide (c.1 ≠ a.toNat))) y = writtenAt ws y := by
  have hn : y.toNat ≠ a.toNat := fun e => h (BitVec.eq_of_toNat_eq e)
  induction ws with
  | nil => rfl
  | cons c ws ih =>
    simp only [writtenAt] at ih ⊢
    by_cases hc : c.1 = a.toNat
    · have hy : ¬ c.1 = y.toNat := fun e => hn (e.symm.trans hc)
      rw [List.filter_cons_of_neg (by simpa using hc), ih, List.filterMap_cons, if_neg hy]
    · rw [List.filter_cons_of_pos (by simpa using hc), List.filterMap_cons, List.filterMap_cons, ih]

/-- The two byte writes of a Sample leave what `Memory.writeSample` leaves. -/
theorem lastAt_sampleWrites {m : List Host.Cell} {v : Byte} {y : Addr} (a : Addr) (x : Sample)
    (h : v = Memory.read m y) :
    ((writtenAt (sampleWrites a x) y).getLast?).getD v = Memory.read (Memory.writeSample m a x) y := by
  have hne : ∀ p q : Addr, p ≠ q → ¬ p.toNat = q.toNat := fun p q hpq e => hpq (BitVec.eq_of_toNat_eq e)
  simp only [writtenAt, sampleWrites, List.filterMap_cons, List.filterMap_nil]
  by_cases h1 : y = a + 1
  · subst h1
    rw [if_neg (hne a (a + 1) (addr_succ_ne a).symm), if_pos rfl, Memory.writeSample_eq, Memory.read_write_self]
    rfl
  · rw [if_neg (hne (a + 1) y (Ne.symm h1))]
    by_cases h0 : y = a
    · subst h0
      rw [if_pos rfl, Memory.writeSample_eq, Memory.read_write_ne _ _ h1, Memory.read_write_self]
      rfl
    · rw [if_neg (hne a y (Ne.symm h0)), Memory.read_writeSample_ne m x h0 h1, ← h]
      rfl

/-! ## Fields -/

@[simp] theorem blockWrites_view (h : HostSide) (a : Addr) (x : Sample) : (h.blockWrites a x).view = h.view := rfl
@[simp] theorem blockWrites_acquired (h : HostSide) (a : Addr) (x : Sample) :
    (h.blockWrites a x).acquired = h.acquired := rfl
@[simp] theorem blockWrites_unmaintained (h : HostSide) (a : Addr) (x : Sample) :
    (h.blockWrites a x).unmaintained = h.unmaintained := rfl
@[simp] theorem blockWrites_unacquired (h : HostSide) (a : Addr) (x : Sample) :
    (h.blockWrites a x).unacquired = h.unacquired ++ sampleWrites a x := rfl

@[simp] theorem hostMaintain_view (h : HostSide) : h.maintain.view = h.acquired := rfl
@[simp] theorem hostMaintain_acquired (h : HostSide) : h.maintain.acquired = h.acquired := rfl
@[simp] theorem hostMaintain_unmaintained (h : HostSide) : h.maintain.unmaintained = [] := rfl
@[simp] theorem hostMaintain_unacquired (h : HostSide) : h.maintain.unacquired = h.unacquired := rfl

@[simp] theorem ownWrite_view (h : HostSide) (a : Addr) (b : Byte) :
    (h.ownWrite a b).view = Memory.write h.view a b := rfl
@[simp] theorem ownWrite_acquired (h : HostSide) (a : Addr) (b : Byte) :
    (h.ownWrite a b).acquired = Memory.write h.acquired a b := rfl

/-- The two outcomes of an acquire. -/
theorem hostAcquire_cases (h : HostSide) (m : List Host.Cell) :
    (Config.hostSeesWrites = true ∧
      h.acquire m = { view := m, acquired := m, unmaintained := [], unacquired := [] }) ∨
    (Config.hostSeesWrites = false ∧
      h.acquire m =
        { view := h.view, acquired := m, unmaintained := h.unmaintained ++ h.unacquired, unacquired := [] }) := by
  unfold HostSide.acquire
  cases Config.hostSeesWrites <;> simp

@[simp] theorem hostAcquire_acquired (h : HostSide) (m : List Host.Cell) : (h.acquire m).acquired = m := by
  rcases hostAcquire_cases h m with ⟨-, e⟩ | ⟨-, e⟩ <;> rw [e]

@[simp] theorem hostAcquire_unacquired (h : HostSide) (m : List Host.Cell) : (h.acquire m).unacquired = [] := by
  rcases hostAcquire_cases h m with ⟨-, e⟩ | ⟨-, e⟩ <;> rw [e]

/-! ## Which values a read may return -/

/-- A read returns an admitted value, whatever the choice. -/
theorem hostByteBy_mem (s : State) (c : Nat) (a : Addr) : s.hostByteBy c a ∈ s.host.admitted a := by
  have hlt : c % (s.host.admitted a).length < (s.host.admitted a).length :=
    Nat.mod_lt _ (List.length_pos_of_ne_nil (by simp [HostSide.admitted]))
  rw [State.hostByteBy, List.getD_eq_getElem _ _ hlt]
  exact List.getElem_mem hlt

/-- Every admitted value is some choice's. -/
theorem exists_hostByteBy {s : State} {a : Addr} {v : Byte} (h : v ∈ s.host.admitted a) :
    ∃ c, s.hostByteBy c a = v := by
  obtain ⟨i, hi, rfl⟩ := List.mem_iff_getElem.mp h
  exact ⟨i, by rw [State.hostByteBy, Nat.mod_eq_of_lt hi, List.getD_eq_getElem _ _ hi]⟩

/-- With one admitted value the read is that one. -/
theorem hostByteBy_of_admitted {s : State} {a : Addr} {v : Byte} (h : s.host.admitted a = [v]) (c : Nat) :
    s.hostByteBy c a = v := by
  simpa [h] using hostByteBy_mem s c a

/-! ## Every update keeps the parts together -/

/-- At reset the HOST has seen all of OUTMEM. -/
theorem replays_reset : HostSide.reset.replays State.reset.outmem := fun _ => ⟨rfl, rfl⟩

theorem replays_blockWrites {h : HostSide} {m : List Host.Cell} (a : Addr) (x : Sample) (hr : h.replays m) :
    (h.blockWrites a x).replays (Memory.writeSample m a x) := fun y =>
  ⟨(hr y).1, by
    rw [blockWrites_unacquired, blockWrites_acquired, lastAt_append]
    exact lastAt_sampleWrites a x (hr y).2⟩

theorem replays_acquire {h : HostSide} {m : List Host.Cell} (hr : h.replays m) : (h.acquire m).replays m := by
  rcases hostAcquire_cases h m with ⟨-, e⟩ | ⟨-, e⟩ <;> rw [e]
  · exact fun _ => ⟨rfl, rfl⟩
  · refine fun y => ⟨?_, rfl⟩
    rw [lastAt_append, (hr y).1]
    exact (hr y).2

theorem replays_maintain {h : HostSide} {m : List Host.Cell} (hr : h.replays m) : h.maintain.replays m := fun y =>
  ⟨rfl, (hr y).2⟩

theorem replays_ownWrite {h : HostSide} {m : List Host.Cell} (a : Addr) (b : Byte) (hr : h.replays m) :
    (h.ownWrite a b).replays (Memory.write m a b) := by
  intro y
  by_cases hy : y = a
  · subst hy
    simp only [lastAt, HostSide.ownWrite, writtenAt_drop_self, List.getLast?_nil, Option.getD_none, Memory.read_write_self,
      and_self]
  · obtain ⟨h1, h2⟩ := hr y
    simp only [lastAt] at h1 h2
    simp only [lastAt, HostSide.ownWrite, writtenAt_drop_ne _ hy, Memory.read_write_ne _ _ hy]
    exact ⟨h1, h2⟩

/-- An acquire keeps the memories canonical. -/
theorem wf_acquire {h : HostSide} {m : List Host.Cell} (hm : Memory.wf m)
    (hw : Memory.wf h.view ∧ Memory.wf h.acquired) :
    Memory.wf (h.acquire m).view ∧ Memory.wf (h.acquire m).acquired := by
  rcases hostAcquire_cases h m with ⟨-, e⟩ | ⟨-, e⟩ <;> rw [e]
  · exact ⟨hm, hm⟩
  · exact ⟨hw.1, hm⟩

/-! ## Since the last acquire -/

/-- What the HOST may read at `a` among what it last acquired and the block's writes since. -/
def HostSide.sinceAcquire (h : HostSide) (a : Addr) : List Byte := Memory.read h.acquired a :: writtenAt h.unacquired a

/-- All of it is admitted. -/
theorem admitted_of_sinceAcquire {h : HostSide} {m : List Host.Cell} {a : Addr} {v : Byte} (hr : h.replays m)
    (hv : v ∈ h.sinceAcquire a) : v ∈ h.admitted a := by
  rw [HostSide.admitted, writtenAt_append, ← List.cons_append]
  rcases List.mem_cons.mp hv with e | hv
  · rw [e, ← (hr a).1]
    exact List.mem_append_left _ (lastAt_mem _ _ _)
  · exact List.mem_append_right _ hv

/-- What OUTMEM holds is one of them. -/
theorem read_mem_sinceAcquire {h : HostSide} {m : List Host.Cell} (hr : h.replays m) (a : Addr) :
    Memory.read m a ∈ h.sinceAcquire a := by
  rw [← (hr a).2]
  exact lastAt_mem _ _ _

end Sys2Proof.Machine
end

