-- ==== Sys2Proof/Laws/Ops.lean ====
section
/-! SUPPORT. Sys2Proof/Laws/Ops.lean: one lemma for each shared operation that says everything it can do, to be cited instead
of unfolding it. -/

namespace Sys2Proof.Machine

open Sys2Proof

theorem busy_iff (s : State) : s.busy = true ↔ s.eng.state ≠ .idle := by simp [State.busy]

theorem not_busy_iff (s : State) : s.busy = false ↔ s.eng.state = .idle := by simp [State.busy]

/-- A guarded command or write: its effect while idle, PROTO_ERR while busy. -/
theorem whenIdle_cases (s : State) (effect : State → State) :
    (s.eng.state = .idle ∧ s.whenIdle effect = effect s) ∨
      (s.eng.state ≠ .idle ∧ s.whenIdle effect = s.flagProtocolError) := by
  unfold State.whenIdle
  by_cases h : s.eng.state = .idle
  · exact Or.inl ⟨h, by simp [State.busy, h]⟩
  · exact Or.inr ⟨h, by simp [State.busy, h]⟩

theorem whenIdle_of_idle {s : State} (effect : State → State) (h : s.eng.state = .idle) :
    s.whenIdle effect = effect s := by simp [State.whenIdle, State.busy, h]

theorem whenIdle_of_busy {s : State} (effect : State → State) (h : s.eng.state ≠ .idle) :
    s.whenIdle effect = s.flagProtocolError := by simp [State.whenIdle, State.busy, h]

theorem legalLength_iff (len : Count) : legalLength len = true ↔ len.toNat ≠ 0 ∧ len.toNat % 2 = 0 := by
  simp [legalLength]

/-- PULL past the BUSY check: accepted for a legal length, rejected for any other. -/
theorem startPull_cases (len : Count) (s : State) :
    ((len.toNat ≠ 0 ∧ len.toNat % 2 = 0) ∧
      s.startPull len =
        { s with
          csr := { s.csr with result := .none, done := false }
          eng := { s.eng with len := len, produced := 0, state := .issue } }) ∨
    (¬(len.toNat ≠ 0 ∧ len.toNat % 2 = 0) ∧
      s.startPull len =
        { s with
          csr := { s.csr with result := .rejected, done := true }
          eng := { s.eng with len := len, produced := 0 } }) := by
  unfold State.startPull
  by_cases h : len.toNat ≠ 0 ∧ len.toNat % 2 = 0
  · exact Or.inl ⟨h, by simp [legalLength, h]⟩
  · exact Or.inr ⟨h, by rw [if_neg (by simpa [legalLength] using h)]⟩

theorem startPull_burst (len : Count) (s : State) : (State.startPull len s).burst = s.burst := by
  unfold State.startPull; split <;> rfl

theorem startPull_outmem (len : Count) (s : State) : (State.startPull len s).outmem = s.outmem := by
  unfold State.startPull; split <;> rfl

/-- ISSUE: the pull ends OK at the end of the region, else the next read is requested. -/
theorem issue_cases (s : State) :
    (s.eng.produced = s.eng.len ∧ s.issue = s.complete .ok) ∨
    (s.eng.produced ≠ s.eng.len ∧
      s.issue =
        { s with
          eng := { s.eng with req := s.nextRequest, k := 0, state := .wait }
          trace := .req s.nextRequest :: s.trace }) := by
  unfold State.issue
  by_cases h : s.eng.produced = s.eng.len
  · exact Or.inl ⟨h, by simp [h]⟩
  · exact Or.inr ⟨h, by simp [h]⟩

theorem issue_outmem (s : State) : s.issue.outmem = s.outmem := by
  rcases issue_cases s with ⟨_, h⟩ | ⟨_, h⟩ <;> simp [h]

/-- The number of Frames the next read asks for. -/
theorem nextRequest_toNat (s : State) :
    s.nextRequest.toNat = min ((s.eng.len.toNat - s.eng.produced.toNat) / 2) s.csr.burstCap.toNat := by
  have h := s.csr.burstCap.isLt
  simp only [State.nextRequest, Engine.remaining, BitVec.toNat_ofNat]
  exact Nat.mod_eq_of_lt (by omega)

/-- The ENGINE's turn: one of its three steps, or nothing. -/
theorem engineStep_cases (s : State) (a : Bool) :
    (s.eng.state = .issue ∧ s.engineStep a = s.issue) ∨
    (s.eng.state = .write ∧ s.eng.i = s.eng.k ∧ s.engineStep a = s.writeEnd) ∨
    (s.eng.state = .write ∧ s.eng.i.toNat < s.eng.k.toNat ∧ a = true ∧ s.engineStep a = s.writeSample) ∨
    (s.eng.state ≠ .issue ∧ ¬(s.eng.state = .write ∧ s.eng.i = s.eng.k) ∧
      ¬(s.eng.state = .write ∧ s.eng.i.toNat < s.eng.k.toNat ∧ a = true) ∧ s.engineStep a = s) := by
  unfold State.engineStep
  cases hs : s.eng.state <;> simp
  by_cases h1 : s.eng.i = s.eng.k
  · simp [h1]
  · by_cases h2 : s.eng.i.toNat < s.eng.k.toNat ∧ a = true
    · simp [h1, h2]
    · rw [if_neg h1, if_neg h2]
      exact Or.inr (Or.inr ⟨h1, by simpa using h2, rfl⟩)

/-- The SOURCE's turn: nothing offered, a refused beat, or one of the three accepted ones. -/
theorem sourceTurn_cases (s : State) :
    (s.channel = [] ∧ sourceTurn s = .next s) ∨
    ∃ b rest, s.channel = b :: rest ∧
      ((s.acceptsBeat b = false ∧ sourceTurn s = .next s) ∨
      (b.getLsbD 33 = false ∧ s.eng.state = .wait ∧ s.eng.k.toNat < s.eng.req.toNat ∧
        sourceTurn s = .next (({ s with channel := rest } : State).takeFrame (b.extractLsb' 0 32))) ∨
      (b.getLsbD 33 = true ∧ b.getLsbD 32 = false ∧ s.eng.state = .wait ∧
        sourceTurn s = .next ({ s with channel := rest } : State).endRead) ∨
      (b.getLsbD 33 = true ∧ b.getLsbD 32 = true ∧ s.eng.state = .wait ∧
        sourceTurn s = .next (({ s with channel := rest } : State).complete .fault))) := by
  unfold sourceTurn
  cases hc : s.channel with
  | nil => exact Or.inl ⟨rfl, rfl⟩
  | cons b rest =>
    refine Or.inr ⟨b, rest, rfl, ?_⟩
    dsimp only
    cases ha : s.acceptsBeat b with
    | false =>
      refine Or.inl ⟨rfl, ?_⟩
      simp only [Bool.false_eq_true, if_false, decodeSrc]
      cases hk : b.getLsbD 33 with
      | false =>
        have : s.acceptsFrame = false := by rw [← ha, State.acceptsBeat, hk]; rfl
        simp [exec, execFrame, this]
      | true =>
        have : s.acceptsEnd = false := by rw [← ha, State.acceptsBeat, hk]; rfl
        cases hst : b.getLsbD 32 <;> simp [exec, execEndOk, execEndFault, this]
    | true =>
      refine Or.inr ?_
      simp only [if_true, decodeSrc]
      cases hk : b.getLsbD 33 with
      | false =>
        have hf : s.eng.state = .wait ∧ s.eng.k.toNat < s.eng.req.toNat := by
          rw [State.acceptsBeat, hk] at ha
          simpa [State.acceptsFrame] using ha
        exact Or.inl ⟨rfl, hf.1, hf.2, by simp [exec, execFrame, State.acceptsFrame, hf]⟩
      | true =>
        have hf : s.eng.state = .wait := by
          rw [State.acceptsBeat, hk] at ha
          simpa [State.acceptsEnd] using ha
        refine Or.inr ?_
        cases hst : b.getLsbD 32 with
        | false => exact Or.inl ⟨rfl, rfl, hf, by simp [exec, execEndOk, State.acceptsEnd, hf]⟩
        | true => exact Or.inr ⟨rfl, rfl, hf, by simp [exec, execEndFault, State.acceptsEnd, hf]⟩

/-- A CTRL write runs the command its word decodes to. -/
theorem runCommandWord_cases (w : Word) (s : State) :
    ((opOf w).toNat = 0 ∧ runCommandWord w s = .next s) ∨
    ((opOf w).toNat = 1 ∧ runCommandWord w s = .next (s.whenIdle (State.startPull (lenOf w)))) ∨
    ((opOf w).toNat = 2 ∧ runCommandWord w s = .next (s.whenIdle State.release)) ∨
    (3 ≤ (opOf w).toNat ∧ runCommandWord w s = .next (s.whenIdle State.flagProtocolError)) := by
  unfold runCommandWord
  have hlt : (opOf w).toNat < 16 := (opOf w).isLt
  generalize (opOf w).toNat = n at hlt ⊢
  interval_cases n <;>
    simp [execNop, execPull, execAck, execReservedCmd3, execReservedCmd4to7, execReservedCmd8to15, reservedCommand]

theorem step_nil {s : State} (h : s.schedule = []) : step s = .next s := by simp [step, nextTurn, h]

theorem step_cons {s : State} {e : Event} {rest : List Event} (h : s.schedule = e :: rest) :
    step s = runEvent e { s with schedule := rest } := by simp [step, nextTurn, h]

end Sys2Proof.Machine
end

