-- ==== Sys2Proof/Laws/Agents.lean ====
section
/-! SUPPORT. Sys2Proof/Laws/Agents.lean: what each agent's turn can do, which step can change OUTMEM, what a pull in
flight keeps of the values a HOST read may return, and runs of several steps. -/

namespace Sys2Proof.Machine

open Sys2Proof

theorem four_bit_eq_iff (x : BitVec 4) (n : Nat) (hn : n < 16) : x = BitVec.ofNat 4 n ↔ x.toNat = n :=
  ⟨fun h => by rw [h]; simp; omega, fun h => BitVec.eq_of_toNat_eq (by rw [h]; simp; omega)⟩

/-- The HOST's turn: a read, an ignored write, a configuration write, or a command. -/
theorem host_cases (d : Descriptor) (w : Word) (s : State) :
    (∃ v, hostTurn d w s = .next (s.emit (.rdata v)) ∧
      (Event.host d w).command = none ∧ (Event.host d w).writesConfig = false) ∨
    (hostTurn d w s = .next (s.observeDone.emit (.rdata s.statusWord)) ∧
      (Event.host d w).command = none ∧ (Event.host d w).writesConfig = false) ∨
    (hostTurn d w s = .next s ∧ (Event.host d w).command = none ∧ (Event.host d w).writesConfig = false) ∨
    ((hostTurn d w s = .next (s.whenIdle (State.setBufBase · w)) ∨
        hostTurn d w s = .next (s.whenIdle (State.setGain · w)) ∨
        hostTurn d w s = .next (s.whenIdle (State.setClamp · w))) ∧
      (Event.host d w).command = none ∧ (Event.host d w).writesConfig = true) ∨
    (hostTurn d w s = runCommandWord w s ∧
      (Event.host d w).command = some w ∧ (Event.host d w).writesConfig = false) := by
  have hlt : (slotOf d).toNat < 16 := (slotOf d).isLt
  have s0 : slotOf d = 0 ↔ (slotOf d).toNat = 0 := four_bit_eq_iff _ 0 (by omega)
  have s2 : slotOf d = 2 ↔ (slotOf d).toNat = 2 := four_bit_eq_iff _ 2 (by omega)
  have s3 : slotOf d = 3 ↔ (slotOf d).toNat = 3 := four_bit_eq_iff _ 3 (by omega)
  have s4 : slotOf d = 4 ↔ (slotOf d).toNat = 4 := four_bit_eq_iff _ 4 (by omega)
  have hc : ∀ a b : BitVec 4, (a == b) = decide (a = b) := fun a b => rfl
  simp only [hostTurn, decodeBus, Event.command, Event.writesConfig, hc, s0, s2, s3, s4, decodeRead, decodeWrite]
  cases hw : isWrite d <;> generalize (slotOf d).toNat = n at hlt ⊢
  · interval_cases n
    · exact Or.inl ⟨_, rfl, by simp⟩
    · exact Or.inr (Or.inl ⟨rfl, by simp⟩)
    all_goals exact Or.inl ⟨_, rfl, by simp⟩
  · interval_cases n
    · exact Or.inr (Or.inr (Or.inr (Or.inr ⟨rfl, by simp⟩)))
    · exact Or.inr (Or.inr (Or.inl ⟨rfl, by simp⟩))
    · exact Or.inr (Or.inr (Or.inr (Or.inl ⟨Or.inl rfl, by simp⟩)))
    · exact Or.inr (Or.inr (Or.inr (Or.inl ⟨Or.inr (Or.inl rfl), by simp⟩)))
    · exact Or.inr (Or.inr (Or.inr (Or.inl ⟨Or.inr (Or.inr rfl), by simp⟩)))
    all_goals exact Or.inr (Or.inr (Or.inl ⟨rfl, by simp⟩))

/-- A refused beat: nothing changes. -/
theorem sourceTurn_refused {s : State} {b : Beat} {more : List Beat} (hc : s.channel = b :: more)
    (h : s.acceptsBeat b = false) : sourceTurn s = .next s := by
  rcases sourceTurn_cases s with ⟨-, e⟩ | ⟨b', r, hc', ⟨-, e⟩ | ⟨h3, hw, hk, e⟩ | ⟨h3, -, hw, e⟩ | ⟨h3, -, hw, e⟩⟩
  · exact e
  · exact e
  all_goals
    rw [hc] at hc'
    cases hc'
    have ha : s.acceptsBeat b = true := by
      simp [State.acceptsBeat, State.acceptsFrame, State.acceptsEnd, -BitVec.getLsbD_eq_getElem, *]
    rw [h] at ha
    cases ha

/-- An accepted Frame beat. -/
theorem sourceTurn_frame {s : State} {b : Beat} {more : List Beat} (hc : s.channel = b :: more)
    (h3 : b.getLsbD 33 = false) (hw : s.eng.state = .wait) (hk : s.eng.k.toNat < s.eng.req.toNat) :
    sourceTurn s = .next (({ s with channel := more } : State).takeFrame (b.extractLsb' 0 32)) := by
  rw [sourceTurn, hc]
  simp only [State.acceptsBeat, h3, Bool.false_eq_true, if_false, State.acceptsFrame, hw, hk, true_and, decide_true,
    if_true, decodeSrc, exec, execFrame]

/-- An accepted `End(Ok)` beat. -/
theorem sourceTurn_endOk {s : State} {b : Beat} {more : List Beat} (hc : s.channel = b :: more)
    (h3 : b.getLsbD 33 = true) (h2 : b.getLsbD 32 = false) (hw : s.eng.state = .wait) :
    sourceTurn s = .next ({ s with channel := more } : State).endRead := by
  rw [sourceTurn, hc]
  simp only [State.acceptsBeat, h3, h2, if_true, State.acceptsEnd, hw, decide_true, decodeSrc, Bool.true_eq_false, if_false,
    exec, execEndOk]

/-- An accepted `End(Fault)` beat. -/
theorem sourceTurn_endFault {s : State} {b : Beat} {more : List Beat} (hc : s.channel = b :: more)
    (h3 : b.getLsbD 33 = true) (h2 : b.getLsbD 32 = true) (hw : s.eng.state = .wait) :
    sourceTurn s = .next (({ s with channel := more } : State).complete .fault) := by
  rw [sourceTurn, hc]
  simp only [State.acceptsBeat, h3, h2, if_true, State.acceptsEnd, hw, decide_true, decodeSrc, Bool.true_eq_false, if_false,
    exec, execEndFault]

theorem engineStep_issue {s : State} (a : Bool) (hs : s.eng.state = .issue) : s.engineStep a = s.issue := by
  rw [State.engineStep, hs]

theorem engineStep_writeEnd {s : State} (a : Bool) (hs : s.eng.state = .write) (h : s.eng.i = s.eng.k) :
    s.engineStep a = s.writeEnd := by
  rw [State.engineStep, hs]
  simp only [h, if_true]

theorem engineStep_writeSample {s : State} (hs : s.eng.state = .write) (h : s.eng.i.toNat < s.eng.k.toNat) :
    s.engineStep true = s.writeSample := by
  have hne : s.eng.i ≠ s.eng.k := fun e => by rw [e] at h; exact Nat.lt_irrefl _ h
  rw [State.engineStep, hs]
  simp only [hne, if_false, h, and_self, if_true]

/-- But for the HOST's own memory write, a step leaves OUTMEM alone or is WRITE_SAMPLE. -/
theorem step_outmem_cases {s t : State} (hstep : step s = .next t)
    (hw : ∀ e rest, s.schedule = e :: rest → e.isMemWrite = false) :
    t.outmem = s.outmem ∨
      (s.eng.state = .write ∧ s.eng.i.toNat < s.eng.k.toNat ∧
        ∃ rest, t = ({ s with schedule := rest } : State).writeSample) := by
  cases hsch : s.schedule with
  | nil => rw [step_nil hsch] at hstep; cases hstep; simp
  | cons e rest =>
    have hw := hw e rest hsch
    rw [step_cons hsch] at hstep
    cases e with
    | host d w =>
      left
      simp only [runEvent] at hstep
      rcases host_cases d w { s with schedule := rest } with
        ⟨v, h, -, -⟩ | ⟨h, -, -⟩ | ⟨h, -, -⟩ | ⟨h, -, -⟩ | ⟨h, -, -⟩
      · rw [h] at hstep; cases hstep; simp
      · rw [h] at hstep; cases hstep; simp
      · rw [h] at hstep; cases hstep; simp
      · rcases h with h | h | h <;> rw [h] at hstep <;> cases hstep <;> unfold State.whenIdle <;> split <;> rfl
      · rw [h] at hstep
        rcases runCommandWord_cases w { s with schedule := rest } with ⟨-, hr⟩ | ⟨-, hr⟩ | ⟨-, hr⟩ | ⟨-, hr⟩ <;>
          rw [hr] at hstep <;> cases hstep
        · simp
        · unfold State.whenIdle; split
          · rfl
          · exact startPull_outmem _ _
        all_goals unfold State.whenIdle; split <;> rfl
    | source =>
      left
      simp only [runEvent] at hstep
      rcases sourceTurn_cases { s with schedule := rest } with
        ⟨-, h⟩ | ⟨b, r, -, ⟨-, h⟩ | ⟨-, -, -, h⟩ | ⟨-, -, -, h⟩ | ⟨-, -, -, h⟩⟩ <;>
        rw [h] at hstep <;> cases hstep <;> simp
    | engine a =>
      simp only [runEvent] at hstep
      cases hstep
      rcases engineStep_cases { s with schedule := rest } a with
        ⟨-, e⟩ | ⟨-, -, e⟩ | ⟨h, h2, -, e⟩ | ⟨-, -, -, e⟩ <;> rw [e]
      · left; exact issue_outmem _
      · left; rfl
      · right; exact ⟨h, h2, rest, rfl⟩
      · left; rfl
    | memWrite a b => cases hw
    | watchIrq => simp only [runEvent, watchIrqTurn] at hstep; cases hstep; simp
    | _ => simp only [runEvent] at hstep; cases hstep; simp

/-- While a pull is in flight the HOST acquires nothing, so each value it may read in the region stays; and the region stays the same. -/
theorem step_sinceAcquire {s t : State} {a : Addr} (hI : s.Inv) (hb : s.eng.state ≠ .idle) (hr : s.inRegion a = true)
    (hstep : step s = .next t) :
    (∀ v ∈ s.host.sinceAcquire a, v ∈ t.host.sinceAcquire a) ∧ (t.eng.state ≠ .idle → t.inRegion a = true) := by
  have hd : s.csr.done = false := by
    cases hd : s.csr.done
    · rfl
    · exact absurd (hI.doneIdle hd) hb
  have keep : ∀ u : State, u.host = s.host → u.csr.bufBase = s.csr.bufBase → u.eng.len = s.eng.len →
      (∀ v ∈ s.host.sinceAcquire a, v ∈ u.host.sinceAcquire a) ∧ (u.eng.state ≠ .idle → u.inRegion a = true) := by
    intro u h1 h2 h3
    rw [h1]
    simp only [State.inRegion, h2, h3]
    exact ⟨fun _ h => h, fun _ => hr⟩
  cases hsch : s.schedule with
  | nil => rw [step_nil hsch] at hstep; cases hstep; exact keep _ rfl rfl rfl
  | cons e rest =>
    rw [step_cons hsch] at hstep
    cases e with
    | host d w =>
      simp only [runEvent] at hstep
      rcases host_cases d w { s with schedule := rest } with
        ⟨v, h, -, -⟩ | ⟨h, -, -⟩ | ⟨h, -, -⟩ | ⟨h, -, -⟩ | ⟨h, -, -⟩
      · rw [h] at hstep; cases hstep; exact keep _ rfl rfl rfl
      · rw [h] at hstep; cases hstep; exact keep _ (by simp [hd]) (by simp) (by simp)
      · rw [h] at hstep; cases hstep; exact keep _ rfl rfl rfl
      · rcases h with h | h | h <;> rw [h, whenIdle_of_busy _ (by exact hb)] at hstep <;> cases hstep <;>
          exact keep _ rfl rfl rfl
      · rw [h] at hstep
        rcases runCommandWord_cases w { s with schedule := rest } with ⟨-, hr⟩ | ⟨-, hr⟩ | ⟨-, hr⟩ | ⟨-, hr⟩ <;>
          rw [hr] at hstep
        · cases hstep; exact keep _ rfl rfl rfl
        all_goals rw [whenIdle_of_busy _ (by exact hb)] at hstep; cases hstep; exact keep _ rfl rfl rfl
    | source =>
      simp only [runEvent] at hstep
      rcases sourceTurn_cases { s with schedule := rest } with
        ⟨-, h⟩ | ⟨b, r, -, ⟨-, h⟩ | ⟨-, -, -, h⟩ | ⟨-, -, -, h⟩ | ⟨-, -, -, h⟩⟩ <;>
        rw [h] at hstep <;> cases hstep <;> exact keep _ rfl rfl rfl
    | engine c =>
      simp only [runEvent] at hstep
      cases hstep
      rcases engineStep_cases { s with schedule := rest } c with
        ⟨-, e⟩ | ⟨-, -, e⟩ | ⟨-, -, -, e⟩ | ⟨-, -, -, e⟩ <;> rw [e]
      · rcases issue_cases { s with schedule := rest } with ⟨-, e⟩ | ⟨-, e⟩ <;> rw [e] <;> exact keep _ rfl rfl rfl
      · exact keep _ rfl rfl rfl
      · refine ⟨fun v h => ?_, fun _ => hr⟩
        simp only [HostSide.sinceAcquire, writeSample_host, blockWrites_acquired, blockWrites_unacquired,
          writtenAt_append] at h ⊢
        rw [← List.cons_append]
        exact List.mem_append_left _ h
      · exact keep _ rfl rfl rfl
    | memWrite b v =>
      simp only [runEvent, memWriteTurn] at hstep
      split at hstep
      · cases hstep
      · rename_i hn
        cases hstep
        have hne : a ≠ b := by
          rintro rfl
          exact hn (by rw [Bool.and_eq_true]; exact ⟨(busy_iff _).2 hb, hr⟩)
        refine ⟨fun v h => ?_, fun _ => hr⟩
        simpa only [HostSide.sinceAcquire, memWrite_host, HostSide.ownWrite, writtenAt_drop_ne _ hne,
          Memory.read_write_ne _ _ hne] using h
    | watchIrq =>
      simp only [runEvent, watchIrqTurn] at hstep
      cases hstep
      exact keep _ (by simp [hd]) (by simp) (by simp)
    | reset => cases hstep; exact ⟨fun _ h => h, fun h => absurd rfl h⟩
    | maintain => cases hstep; exact ⟨fun _ h => h, fun _ => hr⟩
    | _ => cases hstep; exact keep _ rfl rfl rfl

/-! ## Runs -/

theorem run_zero (s : State) : Host.Core.run Sys2Proof.core 0 s = .next s := rfl

/-- A run takes its first step, then the rest. -/
theorem run_succ {n : Nat} {s t : State} (h : step s = .next t) :
    Host.Core.run Sys2Proof.core (n + 1) s = Host.Core.run Sys2Proof.core n t := by
  have : Sys2Proof.core.step s = .next t := h
  simp only [Host.Core.run, this]

/-- A run that ends in a state has taken its first step. -/
theorem run_succ_inv {n : Nat} {s t : State} (h : Host.Core.run Sys2Proof.core (n + 1) s = .next t) :
    ∃ u, step s = .next u ∧ Host.Core.run Sys2Proof.core n u = .next t := by
  have hc : Sys2Proof.core.step s = step s := rfl
  simp only [Host.Core.run, hc] at h
  cases hs : step s with
  | next u => rw [hs] at h; exact ⟨u, rfl, h⟩
  | fault r => rw [hs] at h; cases h
  | refused r => rw [hs] at h; cases h

/-- Two runs after one another. -/
theorem run_add {m n : Nat} {s t : State} (h : Host.Core.run Sys2Proof.core m s = .next t) :
    Host.Core.run Sys2Proof.core (m + n) s = Host.Core.run Sys2Proof.core n t := by
  induction m generalizing s with
  | zero => rw [run_zero] at h; cases h; rw [Nat.zero_add]
  | succ m ih =>
    obtain ⟨u, hu, h⟩ := run_succ_inv h
    rw [Nat.succ_add, run_succ hu]
    exact ih h

end Sys2Proof.Machine
end

