-- ==== Sys2Proof/Laws/Convert.lean ====
section
/-! SUPPORT. Sys2Proof/Laws/Convert.lean: the saturated value of CONVERT lies in the range of a Sample, so its 16 bits keep it. -/

namespace Sys2Proof.Machine

open Sys2Proof

theorem toInt_range (b : BitVec 16) : -32768 ≤ b.toInt ∧ b.toInt ≤ 32767 := by
  have := b.isLt; rw [BitVec.toInt_eq_toNat_cond]; split <;> omega

theorem saturated_range (c : Csr) (f : Frame) : -32768 ≤ c.saturated f ∧ c.saturated f ≤ 32767 := by
  have h1 := toInt_range c.clampLo
  have h2 := toInt_range c.clampHi
  simp only [Csr.saturated, Csr.lowerBound, Csr.upperBound]; omega

/-- The signed value of a converted Sample is the saturated value. -/
theorem convert_toInt (c : Csr) (f : Frame) : (c.convert f).toInt = c.saturated f := by
  have h := saturated_range c f
  rw [Csr.convert, BitVec.toInt_ofInt]
  apply Int.bmod_eq_of_le <;> norm_num <;> omega

end Sys2Proof.Machine
end

