-- ==== Sys2Proof/Laws/Decode.lean ====
section
/-! SUPPORT. Sys2Proof/Laws/Decode.lean: the fields of an assembled word, and a word assembled from its fields. -/

namespace Sys2Proof

/-- The number of two fields side by side. -/
theorem append_toNat {a b : Nat} (x : BitVec a) (y : BitVec b) : (x ++ y).toNat = x.toNat * 2 ^ b + y.toNat := by
  rw [BitVec.toNat_append, ← Nat.shiftLeft_add_eq_or_of_lt y.isLt, Nat.shiftLeft_eq]

/-! ## Command words -/

theorem commandWord_toNat (len : BitVec 16) (rsv : BitVec 12) (op : BitVec 4) :
    (commandWord len rsv op).toNat = len.toNat * 65536 + rsv.toNat * 16 + op.toNat := by
  simp only [commandWord, append_toNat]; omega

@[simp] theorem opOf_commandWord (len : BitVec 16) (rsv : BitVec 12) (op : BitVec 4) :
    opOf (commandWord len rsv op) = op := by
  have := op.isLt
  apply BitVec.eq_of_toNat_eq
  simp only [opOf, BitVec.extractLsb'_toNat, commandWord_toNat, Nat.shiftRight_eq_div_pow]; omega

@[simp] theorem rsvOf_commandWord (len : BitVec 16) (rsv : BitVec 12) (op : BitVec 4) :
    rsvOf (commandWord len rsv op) = rsv := by
  have := op.isLt; have := rsv.isLt
  apply BitVec.eq_of_toNat_eq
  simp only [rsvOf, BitVec.extractLsb'_toNat, commandWord_toNat, Nat.shiftRight_eq_div_pow]; omega

@[simp] theorem lenOf_commandWord (len : BitVec 16) (rsv : BitVec 12) (op : BitVec 4) :
    lenOf (commandWord len rsv op) = len := by
  have := op.isLt; have := rsv.isLt; have := len.isLt
  apply BitVec.eq_of_toNat_eq
  simp only [lenOf, BitVec.extractLsb'_toNat, commandWord_toNat, Nat.shiftRight_eq_div_pow]; omega

theorem commandWord_fields (w : Word) : commandWord (lenOf w) (rsvOf w) (opOf w) = w := by
  have := w.isLt
  apply BitVec.eq_of_toNat_eq
  simp only [commandWord_toNat, opOf, rsvOf, lenOf, BitVec.extractLsb'_toNat, Nat.shiftRight_eq_div_pow]; omega

/-! ## Descriptors -/

theorem descriptor_toNat (we : Bool) (slot : BitVec 4) (lane : BitVec 2) :
    (descriptor we slot lane).toNat = we.toNat * 64 + slot.toNat * 4 + lane.toNat := by
  simp only [descriptor, append_toNat, BitVec.toNat_ofBool]; omega

@[simp] theorem slotOf_descriptor (we : Bool) (slot : BitVec 4) (lane : BitVec 2) :
    slotOf (descriptor we slot lane) = slot := by
  have := slot.isLt; have := lane.isLt
  apply BitVec.eq_of_toNat_eq
  simp only [slotOf, BitVec.extractLsb'_toNat, descriptor_toNat, Nat.shiftRight_eq_div_pow]; omega

@[simp] theorem laneOf_descriptor (we : Bool) (slot : BitVec 4) (lane : BitVec 2) :
    laneOf (descriptor we slot lane) = lane := by
  have := slot.isLt; have := lane.isLt
  apply BitVec.eq_of_toNat_eq
  simp only [laneOf, BitVec.extractLsb'_toNat, descriptor_toNat, Nat.shiftRight_eq_div_pow]; omega

@[simp] theorem isWrite_descriptor (we : Bool) (slot : BitVec 4) (lane : BitVec 2) :
    isWrite (descriptor we slot lane) = we := by
  revert we slot lane; decide

theorem descriptor_fields (t : Descriptor) : descriptor (isWrite t) (slotOf t) (laneOf t) = t := by
  revert t; decide

/-! ## Beats -/

theorem beat_toNat (kind st : BitVec 1) (data : BitVec 32) :
    (beat kind st data).toNat = kind.toNat * 8589934592 + st.toNat * 4294967296 + data.toNat := by
  simp only [beat, append_toNat]; omega

@[simp] theorem beat_data (kind st : BitVec 1) (data : BitVec 32) : (beat kind st data).extractLsb' 0 32 = data := by
  have := data.isLt
  apply BitVec.eq_of_toNat_eq
  simp only [BitVec.extractLsb'_toNat, beat_toNat, Nat.shiftRight_eq_div_pow]; omega

@[simp] theorem beat_st (kind st : BitVec 1) (data : BitVec 32) : (beat kind st data).extractLsb' 32 1 = st := by
  have := data.isLt; have := st.isLt
  apply BitVec.eq_of_toNat_eq
  simp only [BitVec.extractLsb'_toNat, beat_toNat, Nat.shiftRight_eq_div_pow]; omega

theorem beat_kind_bit (kind st : BitVec 1) (data : BitVec 32) :
    (beat kind st data).getLsbD 33 = kind.getLsbD 0 := by
  simp only [beat, BitVec.getLsbD_append]; simp

theorem beat_st_bit (kind st : BitVec 1) (data : BitVec 32) : (beat kind st data).getLsbD 32 = st.getLsbD 0 := by
  simp only [beat, BitVec.getLsbD_append]; simp

/-- A beat assembled from its two control bits and its data. -/
theorem beat_fields (b : Beat) :
    beat (BitVec.ofBool (b.getLsbD 33)) (BitVec.ofBool (b.getLsbD 32)) (b.extractLsb' 0 32) = b := by
  have hb := b.isLt
  apply BitVec.eq_of_toNat_eq
  simp only [beat_toNat, BitVec.toNat_ofBool, BitVec.getLsbD, Nat.testBit_eq_decide_div_mod_eq,
    BitVec.extractLsb'_toNat, Nat.shiftRight_eq_div_pow]
  rcases Nat.mod_two_eq_zero_or_one (b.toNat / 2 ^ 33) with h1 | h1 <;>
    rcases Nat.mod_two_eq_zero_or_one (b.toNat / 2 ^ 32) with h2 | h2 <;>
    simp only [h1, h2, zero_ne_one, decide_true, decide_false, Bool.toNat_true, Bool.toNat_false] <;> omega

end Sys2Proof
end

