-- ==== Sys2Proof/Laws/PerInstr.lean ====
section
/-! SUPPORT. Sys2Proof/Laws/PerInstr.lean: the statements about every instruction as syntax, one lemma for each constructor. -/

namespace Sys2Proof.Laws.RowListed

open Sys2Proof

/-- The word of a well-formed instruction lies in the instruction's row of the opcode table, under the row's mask. -/
def Statement (i : Instr) : Prop := i.wf = true → i.row ∈ opcodeTable ∧ i.row.covers (encode i) = true

/-! ## What a row's mask leaves of an encoded word -/

theorem commandWord_low (len : BitVec 16) (rsv : BitVec 12) (op : BitVec 4) :
    (commandWord len rsv op).toNat % 16 = op.toNat := by
  have := op.isLt
  simp only [commandWord, BitVec.toNat_append]
  rw [← Nat.shiftLeft_add_eq_or_of_lt (by simpa using this), Nat.shiftLeft_eq]
  omega

theorem commandWord_mask (len : BitVec 16) (rsv : BitVec 12) (op : BitVec 4) {m : Nat} (h : m &&& 15 = m) :
    (commandWord len rsv op).toNat &&& m = op.toNat &&& m := by
  rw [← h, Nat.and_comm m 15, ← Nat.and_assoc, ← Nat.and_assoc, show (15 : Nat) = 2 ^ 4 - 1 from rfl,
    Nat.and_two_pow_sub_one_eq_mod, Nat.and_two_pow_sub_one_eq_mod, show 2 ^ 4 = 16 from rfl, commandWord_low,
    Nat.mod_eq_of_lt op.isLt]

theorem beat_mask (kind st : BitVec 1) (data : BitVec 32) (m : BitVec 2) :
    (beat kind st data).toNat &&& (m ++ 0#32).toNat = ((kind ++ st &&& m) ++ 0#32).toNat := by
  refine Nat.eq_of_testBit_eq fun i => ?_
  simp only [beat, Nat.testBit_and, BitVec.testBit_toNat, BitVec.getLsbD_append, BitVec.getLsbD_and,
    BitVec.getLsbD_zero]
  by_cases h : i < 32 <;> simp [h]

theorem nop (len : BitVec 16) (rsv : BitVec 12) : Statement (.nop len rsv) :=
  fun _ => ⟨by simp [Instr.row, opcodeTable], by
    simp [Instr.row, Row.covers, encode, Raw.port, Raw.number, commandWord_mask]⟩

theorem pull (len : BitVec 16) (rsv : BitVec 12) : Statement (.pull len rsv) :=
  fun _ => ⟨by simp [Instr.row, opcodeTable], by
    simp [Instr.row, Row.covers, encode, Raw.port, Raw.number, commandWord_mask]⟩

theorem ack (len : BitVec 16) (rsv : BitVec 12) : Statement (.ack len rsv) :=
  fun _ => ⟨by simp [Instr.row, opcodeTable], by
    simp [Instr.row, Row.covers, encode, Raw.port, Raw.number, commandWord_mask]⟩

theorem reservedCmd3 (len : BitVec 16) (rsv : BitVec 12) : Statement (.reservedCmd3 len rsv) :=
  fun _ => ⟨by simp [Instr.row, opcodeTable], by
    simp [Instr.row, Row.covers, encode, Raw.port, Raw.number, commandWord_mask]⟩

theorem reservedCmd4to7 (len : BitVec 16) (rsv : BitVec 12) (op : BitVec 4) : Statement (.reservedCmd4to7 len rsv op) :=
  fun h => ⟨by simp [Instr.row, opcodeTable], by
    have hop : op.toNat &&& 12 = 4 := by
      revert h; simp only [Instr.wf]; revert op; decide
    simpa [Instr.row, Row.covers, encode, Raw.port, Raw.number, commandWord_mask] using hop⟩

theorem reservedCmd8to15 (len : BitVec 16) (rsv : BitVec 12) (op : BitVec 4) : Statement (.reservedCmd8to15 len rsv op) :=
  fun h => ⟨by simp [Instr.row, opcodeTable], by
    have hop : op.toNat &&& 8 = 8 := by
      revert h; simp only [Instr.wf]; revert op; decide
    simpa [Instr.row, Row.covers, encode, Raw.port, Raw.number, commandWord_mask] using hop⟩

theorem rdCtrl (lane : BitVec 2) : Statement (.rdCtrl lane) :=
  fun _ => ⟨by simp [Instr.row, opcodeTable], by
    have hd : ∀ lane : BitVec 2, (descriptor false 0 lane).toNat &&& 124 = 0 := by decide
    simpa [Instr.row, Row.covers, encode, Raw.port, Raw.number] using hd lane⟩

theorem rdStatus (lane : BitVec 2) : Statement (.rdStatus lane) :=
  fun _ => ⟨by simp [Instr.row, opcodeTable], by
    have hd : ∀ lane : BitVec 2, (descriptor false 1 lane).toNat &&& 124 = 4 := by decide
    simpa [Instr.row, Row.covers, encode, Raw.port, Raw.number] using hd lane⟩

theorem rdBufBase (lane : BitVec 2) : Statement (.rdBufBase lane) :=
  fun _ => ⟨by simp [Instr.row, opcodeTable], by
    have hd : ∀ lane : BitVec 2, (descriptor false 2 lane).toNat &&& 124 = 8 := by decide
    simpa [Instr.row, Row.covers, encode, Raw.port, Raw.number] using hd lane⟩

theorem rdGain (lane : BitVec 2) : Statement (.rdGain lane) :=
  fun _ => ⟨by simp [Instr.row, opcodeTable], by
    have hd : ∀ lane : BitVec 2, (descriptor false 3 lane).toNat &&& 124 = 12 := by decide
    simpa [Instr.row, Row.covers, encode, Raw.port, Raw.number] using hd lane⟩

theorem rdClamp (lane : BitVec 2) : Statement (.rdClamp lane) :=
  fun _ => ⟨by simp [Instr.row, opcodeTable], by
    have hd : ∀ lane : BitVec 2, (descriptor false 4 lane).toNat &&& 124 = 16 := by decide
    simpa [Instr.row, Row.covers, encode, Raw.port, Raw.number] using hd lane⟩

theorem rdParam (lane : BitVec 2) : Statement (.rdParam lane) :=
  fun _ => ⟨by simp [Instr.row, opcodeTable], by
    have hd : ∀ lane : BitVec 2, (descriptor false 5 lane).toNat &&& 124 = 20 := by decide
    simpa [Instr.row, Row.covers, encode, Raw.port, Raw.number] using hd lane⟩

theorem rdReqLen (lane : BitVec 2) : Statement (.rdReqLen lane) :=
  fun _ => ⟨by simp [Instr.row, opcodeTable], by
    have hd : ∀ lane : BitVec 2, (descriptor false 6 lane).toNat &&& 124 = 24 := by decide
    simpa [Instr.row, Row.covers, encode, Raw.port, Raw.number] using hd lane⟩

theorem rdRsv1C (lane : BitVec 2) : Statement (.rdRsv1C lane) :=
  fun _ => ⟨by simp [Instr.row, opcodeTable], by
    have hd : ∀ lane : BitVec 2, (descriptor false 7 lane).toNat &&& 124 = 28 := by decide
    simpa [Instr.row, Row.covers, encode, Raw.port, Raw.number] using hd lane⟩

theorem rdRsv20to3F (slot : BitVec 4) (lane : BitVec 2) : Statement (.rdRsv20to3F slot lane) :=
  fun h => ⟨by simp [Instr.row, opcodeTable], by
    have hd : (descriptor false slot lane).toNat &&& 96 = 32 := by
      revert h; simp only [Instr.wf]; revert slot lane; decide
    simpa [Instr.row, Row.covers, encode, Raw.port, Raw.number] using hd⟩

theorem wrCtrl (lane : BitVec 2) (w : Word) : Statement (.wrCtrl lane w) :=
  fun _ => ⟨by simp [Instr.row, opcodeTable], by
    have hd : ∀ lane : BitVec 2, (descriptor true 0 lane).toNat &&& 124 = 64 := by decide
    simpa [Instr.row, Row.covers, encode, Raw.port, Raw.number] using hd lane⟩

theorem wrStatus (lane : BitVec 2) (w : Word) : Statement (.wrStatus lane w) :=
  fun _ => ⟨by simp [Instr.row, opcodeTable], by
    have hd : ∀ lane : BitVec 2, (descriptor true 1 lane).toNat &&& 124 = 68 := by decide
    simpa [Instr.row, Row.covers, encode, Raw.port, Raw.number] using hd lane⟩

theorem wrBufBase (lane : BitVec 2) (w : Word) : Statement (.wrBufBase lane w) :=
  fun _ => ⟨by simp [Instr.row, opcodeTable], by
    have hd : ∀ lane : BitVec 2, (descriptor true 2 lane).toNat &&& 124 = 72 := by decide
    simpa [Instr.row, Row.covers, encode, Raw.port, Raw.number] using hd lane⟩

theorem wrGain (lane : BitVec 2) (w : Word) : Statement (.wrGain lane w) :=
  fun _ => ⟨by simp [Instr.row, opcodeTable], by
    have hd : ∀ lane : BitVec 2, (descriptor true 3 lane).toNat &&& 124 = 76 := by decide
    simpa [Instr.row, Row.covers, encode, Raw.port, Raw.number] using hd lane⟩

theorem wrClamp (lane : BitVec 2) (w : Word) : Statement (.wrClamp lane w) :=
  fun _ => ⟨by simp [Instr.row, opcodeTable], by
    have hd : ∀ lane : BitVec 2, (descriptor true 4 lane).toNat &&& 124 = 80 := by decide
    simpa [Instr.row, Row.covers, encode, Raw.port, Raw.number] using hd lane⟩

theorem wrParam (lane : BitVec 2) (w : Word) : Statement (.wrParam lane w) :=
  fun _ => ⟨by simp [Instr.row, opcodeTable], by
    have hd : ∀ lane : BitVec 2, (descriptor true 5 lane).toNat &&& 124 = 84 := by decide
    simpa [Instr.row, Row.covers, encode, Raw.port, Raw.number] using hd lane⟩

theorem wrReqLen (lane : BitVec 2) (w : Word) : Statement (.wrReqLen lane w) :=
  fun _ => ⟨by simp [Instr.row, opcodeTable], by
    have hd : ∀ lane : BitVec 2, (descriptor true 6 lane).toNat &&& 124 = 88 := by decide
    simpa [Instr.row, Row.covers, encode, Raw.port, Raw.number] using hd lane⟩

theorem wrRsv5C (lane : BitVec 2) (w : Word) : Statement (.wrRsv5C lane w) :=
  fun _ => ⟨by simp [Instr.row, opcodeTable], by
    have hd : ∀ lane : BitVec 2, (descriptor true 7 lane).toNat &&& 124 = 92 := by decide
    simpa [Instr.row, Row.covers, encode, Raw.port, Raw.number] using hd lane⟩

theorem wrRsv60to7F (slot : BitVec 4) (lane : BitVec 2) (w : Word) : Statement (.wrRsv60to7F slot lane w) :=
  fun h => ⟨by simp [Instr.row, opcodeTable], by
    have hd : (descriptor true slot lane).toNat &&& 96 = 96 := by
      revert h; simp only [Instr.wf]; revert slot lane; decide
    simpa [Instr.row, Row.covers, encode, Raw.port, Raw.number] using hd⟩

theorem frame (st : BitVec 1) (d : Frame) : Statement (.frame st d) :=
  fun _ => ⟨by simp [Instr.row, opcodeTable], by
    have hb := beat_mask 0 st d 2
    have hm : ∀ st : BitVec 1, ((0#1 ++ st &&& 2#2) ++ 0#32).toNat = 0 := by decide
    simp only [Instr.row, Row.covers, encode, Raw.port, Raw.number]
    exact Bool.and_eq_true_iff.mpr ⟨rfl, beq_iff_eq.mpr (hb.trans (hm st))⟩⟩

theorem endOk (data : BitVec 32) : Statement (.endOk data) :=
  fun _ => ⟨by simp [Instr.row, opcodeTable], by
    have hb := beat_mask 1 0 data 3
    simp only [Instr.row, Row.covers, encode, Raw.port, Raw.number]
    exact Bool.and_eq_true_iff.mpr ⟨rfl, beq_iff_eq.mpr (hb.trans rfl)⟩⟩

theorem endFault (data : BitVec 32) : Statement (.endFault data) :=
  fun _ => ⟨by simp [Instr.row, opcodeTable], by
    have hb := beat_mask 1 1 data 3
    simp only [Instr.row, Row.covers, encode, Raw.port, Raw.number]
    exact Bool.and_eq_true_iff.mpr ⟨rfl, beq_iff_eq.mpr (hb.trans rfl)⟩⟩

end Sys2Proof.Laws.RowListed
end

