-- ==== Sys2Proof/Tests/Slice0.lean ====
section
/-! SUPPORT. Sys2Proof/Tests/Slice0.lean: small checks on fixed values, the expected ones taken from spec/95_test_vectors.md or worked
out from the rule named; and for every obligation with hypotheses a state and operands that meet them all. -/

namespace Sys2Proof.Tests

open Sys2Proof Sys2Proof.Machine

/-- The state an outcome leads to. -/
def nextOf : Host.Outcome State Fault Refusal → Option State
  | .next s => some s
  | _ => none

/-- STATUS after an instruction. -/
def statusAfter (i : Instr) (s : State) : Option Word := (nextOf (exec i s)).map State.statusWord

/-- The newest emission after an instruction. -/
def emitted (i : Instr) (s : State) : Option Observation := (nextOf (exec i s)).bind fun t => t.trace.head?

/-- The first bytes of OUTMEM from an address on. -/
def bytesFrom (s : State) (a : Addr) (n : Nat) : List Byte :=
  (List.range n).map fun j => Memory.read s.outmem (a + BitVec.ofNat 32 j)

/-- Reset, with a pull in the engine state given. -/
def inPull (e : Engine) : State := { State.reset with eng := e }

/-- `pull 4` about to issue its first read. -/
def sIssue : State := inPull ⟨.issue, 4, 0, 0, 0, 0⟩

/-- `pull 4` with one of two Frames accepted. -/
def sWait : State := { inPull ⟨.wait, 4, 0, 2, 1, 0⟩ with burst := [(0, 0x00640000)] }

/-- `pull 4` with both Frames accepted. -/
def sFull : State := { inPull ⟨.wait, 4, 0, 2, 2, 0⟩ with burst := [(0, 0x00640000), (1, 0xFFFF0000)] }

/-- `pull 4` with the second Sample still to be written, the region starting at the last byte but two. -/
def sWrite : State :=
  { inPull ⟨.write, 4, 2, 2, 2, 1⟩ with
    csr := { Csr.reset with bufBase := 0xFFFFFFFD }
    burst := [(0, 0x00640000), (1, 0xFFFF0000)] }

/-- `pull 4` with both Samples written. -/
def sWritten : State := { sFull with eng := ⟨.write, 4, 4, 2, 2, 2⟩ }

/-- `pull 4` about to complete. -/
def sLast : State := { sFull with eng := ⟨.issue, 4, 4, 2, 2, 2⟩ }

/-- `pull 4` done, its result held: STATUS 0x00040006. -/
def sDone : State :=
  { sFull with eng := ⟨.idle, 4, 4, 2, 2, 2⟩, csr := { Csr.reset with done := true, result := .ok } }

/-- A FAULT held together with PROTO_ERR: STATUS 0x0004001A. -/
def sFaulted : State :=
  { sDone with
    eng := ⟨.idle, 8, 4, 2, 1, 2⟩
    csr := { Csr.reset with done := true, result := .fault, protoErr := true } }

/-! ## WellFormed -/

theorem test_wf_refuses_low_opcode : (Instr.reservedCmd4to7 0 0 3).wf = false := by decide
theorem test_wf_refuses_high_opcode : (Instr.reservedCmd4to7 0 0 8).wf = false := by decide
theorem test_wf_refuses_opcode_below_8 : (Instr.reservedCmd8to15 0 0 7).wf = false := by decide
theorem test_wf_refuses_read_slot_below_8 : (Instr.rdRsv20to3F 7 0).wf = false := by decide
theorem test_wf_refuses_write_slot_below_8 : (Instr.wrRsv60to7F 7 0 0).wf = false := by decide
theorem test_wf_admits_the_edges :
    (Instr.reservedCmd4to7 0 0 4).wf = true ∧ (Instr.reservedCmd4to7 0 0 7).wf = true ∧
    (Instr.reservedCmd8to15 0 0 8).wf = true ∧ (Instr.reservedCmd8to15 0 0 15).wf = true ∧
    (Instr.rdRsv20to3F 8 0).wf = true ∧ (Instr.rdRsv20to3F 15 0).wf = true ∧ (Instr.wrRsv60to7F 8 0 0).wf = true := by
  decide

/-! ## Decoding: words written out from R112, R114 and R116 -/

/-- 95 section 2.2; 0x0012ABC3 and its like from R113: OP in bits 3:0, RSV in 15:4, LEN in 31:16. -/
theorem test_decode_commands :
    decodeTableWord 32 0x00000000 = some (.nop 0 0) ∧
    decodeTableWord 32 0x0002FFF1 = some (.pull 2 0xFFF) ∧
    decodeTableWord 32 0x00000002 = some (.ack 0 0) ∧
    decodeTableWord 32 0x0012ABC3 = some (.reservedCmd3 0x0012 0xABC) ∧
    decodeTableWord 32 0x00000004 = some (.reservedCmd4to7 0 0 4) ∧
    decodeTableWord 32 0x0000ABC7 = some (.reservedCmd4to7 0 0xABC 7) ∧
    decodeTableWord 32 0x00000008 = some (.reservedCmd8to15 0 0 8) ∧
    decodeTableWord 32 0x0000000F = some (.reservedCmd8to15 0 0 15) := by decide

/-- 95 section 2.3: the descriptors of the reads. -/
theorem test_decode_reads :
    decodeTableWord 8 0x00 = some (.rdCtrl 0) ∧ decodeTableWord 8 0x05 = some (.rdStatus 1) ∧
    decodeTableWord 8 0x08 = some (.rdBufBase 0) ∧ decodeTableWord 8 0x0F = some (.rdGain 3) ∧
    decodeTableWord 8 0x10 = some (.rdClamp 0) ∧ decodeTableWord 8 0x14 = some (.rdParam 0) ∧
    decodeTableWord 8 0x18 = some (.rdReqLen 0) ∧ decodeTableWord 8 0x1C = some (.rdRsv1C 0) ∧
    decodeTableWord 8 0x20 = some (.rdRsv20to3F 8 0) ∧ decodeTableWord 8 0x3C = some (.rdRsv20to3F 15 0) := by decide

/-- 95 section 2.3: the descriptors of the writes, the write data in the four bytes after the descriptor. -/
theorem test_decode_writes :
    decodeTableWord 8 0x40 = some (.wrCtrl 0 0) ∧ decodeTableWord 8 0x44 = some (.wrStatus 0 0) ∧
    decodeTableWord 8 0x48 = some (.wrBufBase 0 0) ∧ decodeTableWord 8 0x4C = some (.wrGain 0 0) ∧
    decodeTableWord 8 0x53 = some (.wrClamp 3 0) ∧ decodeTableWord 8 0x54 = some (.wrParam 0 0) ∧
    decodeTableWord 8 0x58 = some (.wrReqLen 0 0) ∧ decodeTableWord 8 0x5C = some (.wrRsv5C 0 0) ∧
    decodeTableWord 8 0x60 = some (.wrRsv60to7F 8 0 0) ∧ decodeTableWord 8 0x7F = some (.wrRsv60to7F 15 3 0) ∧
    decodeNat .bus 0x0000100148 = .ok (.wrBufBase 0 0x00001001) := by
  refine ⟨by decide, by decide, by decide, by decide, by decide, by decide, by decide, by decide, by decide, by decide, rfl⟩

/-- R116: KIND in bit 33, ST in bit 32. -/
theorem test_decode_beats :
    decodeTableWord 40 0x000640000 = some (.frame 0 0x00640000) ∧
    decodeTableWord 40 0x1FFFF0000 = some (.frame 1 0xFFFF0000) ∧
    decodeTableWord 40 0x200000000 = some (.endOk 0) ∧ decodeTableWord 40 0x2DEADBEEF = some (.endOk 0xDEADBEEF) ∧
    decodeTableWord 40 0x300000001 = some (.endFault 1) := by decide

/-- A bit above the format's width, and a byte string of the wrong length, are rejected by name (log 15). -/
theorem test_decode_rejects :
    decodeTableWord 8 0x80 = none ∧ decodeTableWord 40 0x400000000 = none ∧
    decodeNat .cmd 0x100000000 = .error .bitsAboveFormat ∧ decodeBytes .cmd [1, 0, 0] = .error .wrongLength ∧
    decodeBytes .cmd [0x01, 0x00, 0x00, 0x02] = .ok (.pull 512 0) := by
  refine ⟨by decide, by decide, rfl, rfl, rfl⟩

/-- R125: the words of the pseudo-instructions' examples. -/
theorem test_pseudo_words :
    (Pseudo.pull 512).expand = (0x40, 0x02000001) ∧ (Pseudo.setgain 3 1).expand = (0x4C, 0x00010003) ∧
    (Pseudo.setclamp (-100) 100).expand = (0x50, 0x0064FF9C) ∧ Pseudo.ack.expand = (0x40, 0x00000002) := by decide

/-! ## CONVERT: 95 sections 1.2, 1.3 and 2.1 -/

/-- The configuration of a GAIN word and a CLAMP word. -/
def configured (gain clamp : Word) : Csr := ((State.reset.setGain gain).setClamp clamp).csr

theorem test_convert_at_reset :
    ([0x20000000, 0x1FFF0000, 0xE0000000, 0xDFFF0000, 0x7FFF0000, 0x80000000, 0x4E200000, 0xB1E00000, 0x0064FFFF,
        0xFFFFFFFF] : List Frame).map Csr.reset.convert =
      [0x7FFF, 0x7FFC, 0x8000, 0x8000, 0x7FFF, 0x8000, 0x7FFF, 0x8000, 0x0190, 0xFFFC] := by decide

theorem test_convert_floors :
    (configured 0x00010003 0x7FFF8000).convert 0xFFFF0000 = 0xFFFE ∧
    (configured 0x00020006 0x7FFF8000).convert 0xFFFD0000 = 0xFFFB ∧
    (configured 0x000F0001 0x7FFF8000).convert 0xFFFF0000 = 0xFFFF ∧
    (configured 0x000FFFFF 0x7FFF8000).convert 0x7FFF0000 = 0x7FFF ∧
    (configured 0x0000FFFF 0x7FFF8000).convert 0x80000000 = 0x8000 := by decide

theorem test_convert_clamps :
    (configured 0x00000004 0x0064FF9C).convert 0x00640000 = 0x0064 ∧
    (configured 0x00000004 0x0064FF9C).convert 0xFFE20000 = 0xFF9C ∧
    (configured 0x00000004 0xFF9C0064).convert 0x00000000 = 0xFF9C ∧
    (configured 0x00000000 0x000A0001).convert 0xFFFB0000 = 0x0001 ∧
    (configured 0xFFF00004 0x7FFF8000).convert 0x12340000 = 0x48D0 := by decide

/-! ## Commands: 95 section 2.2 -/

theorem test_nop : statusAfter (.nop 0xFFFF 0xFFF) { sIssue with csr := { Csr.reset with protoErr := true } } = some 0x11 := by
  decide

theorem test_pull_starts :
    statusAfter (.pull 2 0xFFF) State.reset = some 0x00000001 ∧
    statusAfter (.pull 0xFFFE 0) State.reset = some 0x00000001 ∧
    statusAfter (.pull 4 0) { sDone with csr := { sDone.csr with protoErr := true } } = some 0x00000011 := by decide

theorem test_pull_rejects :
    statusAfter (.pull 0 0) State.reset = some 0x0000000E ∧ statusAfter (.pull 7 0) sDone = some 0x0000000E ∧
    (nextOf (exec (.pull 7 0) State.reset)).map State.reqLenWord = some 0x00000007 ∧
    statusAfter (.pull 7 0) sIssue = some 0x00000011 := by decide

theorem test_ack :
    statusAfter (.ack 0 0) sFaulted = some 0x00040000 ∧ statusAfter (.ack 0 0) sIssue = some 0x00000011 := by decide

theorem test_reserved_commands :
    statusAfter (.reservedCmd3 0 0) sDone = some 0x00040016 ∧
    statusAfter (.reservedCmd4to7 0 0 5) sIssue = some 0x00000011 ∧
    statusAfter (.reservedCmd8to15 0 0 15) State.reset = some 0x00000010 := by decide

/-! ## CSR access: 95 section 2.3 -/

theorem test_reads_at_reset :
    emitted (.rdCtrl 0) State.reset = some (.rdata 0x00000000) ∧
    emitted (.rdBufBase 0) State.reset = some (.rdata 0x00000000) ∧
    emitted (.rdGain 3) State.reset = some (.rdata 0x00000004) ∧
    emitted (.rdClamp 0) State.reset = some (.rdata 0x7FFF8000) ∧
    emitted (.rdParam 0) State.reset = some (.rdata 0x00000100) ∧
    emitted (.rdReqLen 0) State.reset = some (.rdata 0x00000000) ∧
    emitted (.rdRsv1C 0) State.reset = some (.rdata 0) ∧ emitted (.rdRsv20to3F 15 0) sIssue = some (.rdata 0) := by
  refine ⟨by decide, by decide, by decide, by decide, by decide, by decide, by decide, by decide⟩

theorem test_read_status :
    emitted (.rdStatus 1) sIssue = some (.rdata 0x00000001) ∧ emitted (.rdStatus 0) sWrite = some (.rdata 0x00020001) := by
  decide

/-- STATUS with a result held: the words of 95 sections 2.2 and 2.4. -/
theorem test_status_words : sDone.statusWord = 0x00040006 ∧ sFaulted.statusWord = 0x0004001A := by decide

theorem test_configuration_writes :
    (nextOf (exec (.wrBufBase 0 0x00001001) State.reset)).map (fun t => t.csr.bufBase) = some 0x00001001 ∧
    (nextOf (exec (.wrGain 0 0xFFF00008) State.reset)).map (fun t => t.csr.gainWord) = some 0x00000008 ∧
    (nextOf (exec (.wrGain 0 0x000FFFFF) State.reset)).map (fun t => t.csr.gainWord) = some 0x000FFFFF ∧
    (nextOf (exec (.wrClamp 0 0xFF9C0064) sDone)).map (fun t => t.csr.clampWord) = some 0xFF9C0064 := by decide

theorem test_configuration_writes_while_busy :
    (nextOf (exec (.wrBufBase 0 0x5000) sWait)).map (fun t => (t.csr.bufBase, t.csr.protoErr)) = some (0, true) ∧
    (nextOf (exec (.wrGain 0 8) sWait)).map (fun t => (t.csr.gainWord, t.csr.protoErr)) = some (4, true) ∧
    (nextOf (exec (.wrClamp 0 0) sWait)).map (fun t => (t.csr.clampWord, t.csr.protoErr)) = some (0x7FFF8000, true) := by
  decide

theorem test_ignored_writes :
    statusAfter (.wrStatus 0 0) sDone = some 0x00040006 ∧ statusAfter (.wrParam 0 0) sWait = some 0x00000001 ∧
    statusAfter (.wrReqLen 0 5) State.reset = some 0 ∧ statusAfter (.wrRsv5C 0 5) sWait = some 0x00000001 ∧
    statusAfter (.wrRsv60to7F 15 0 5) sWait = some 0x00000001 := by decide

theorem test_ctrl_write :
    statusAfter (.wrCtrl 3 0x00070001) State.reset = some 0x0000000E ∧
    statusAfter (.wrCtrl 0 0xFFFFFFF0) State.reset = some 0x00000000 := by decide

/-! ## The engine and the SOURCE: 95 section 2.4 -/

theorem test_frame_beat :
    (nextOf (exec (.frame 1 0xFFFF0000) sWait)).map (fun t => (t.eng.k, t.burst)) =
      some (2, [(0, 0x00640000), (1, 0xFFFF0000)]) ∧
    nextOf (exec (.frame 0 5) sFull) = some sFull := by decide

theorem test_end_ok :
    (nextOf (exec (.endOk 7) sFull)).map (fun t => (t.eng, t.csr.done)) = some (⟨.write, 4, 0, 2, 2, 0⟩, false) ∧
    nextOf (exec (.endOk 0) State.reset) = some State.reset := by decide

theorem test_end_fault :
    statusAfter (.endFault 7) sWait = some 0x0000000A ∧ (nextOf (exec (.endFault 7) sWait)).map (fun t => t.outmem) = some [] := by
  decide

/-- Rows 1 and 9 of the trace, and `rem = 156` of R221's worked example. -/
theorem test_issue :
    sIssue.issue.eng = ⟨.wait, 4, 0, 2, 0, 0⟩ ∧ sIssue.issue.trace = [.req 2] ∧ sLast.issue.statusWord = 0x00040006 ∧
    (inPull ⟨.issue, 512, 200, 0, 0, 0⟩).nextRequest = 156 ∧ (inPull ⟨.issue, 65534, 0, 0, 0, 0⟩).nextRequest = 256 := by
  decide

/-- Row 7 of the trace, with the Sample at the top of the address space: low byte at 0xFFFFFFFF, high byte at 0. -/
theorem test_write_sample_wraps :
    bytesFrom sWrite.writeSample 0xFFFFFFFF 2 = [0xFC, 0xFF] ∧ sWrite.writeSample.eng = ⟨.write, 4, 4, 2, 2, 2⟩ ∧
    sWrite.writeSample.trace = [.memwr 0xFFFFFFFF 0xFFFC] := by decide

/-- 95 section 2.5: reset during a pull keeps the bytes already written. -/
theorem test_reset_in_a_pull :
    (sWrite.writeSample.onReset).statusWord = 0 ∧ bytesFrom sWrite.writeSample.onReset 0xFFFFFFFF 2 = [0xFC, 0xFF] := by
  decide

/-- 95 section 2.4, the wrap at the last byte, read back by the HOST: little-endian value (R14). -/
theorem test_host_read_value : leValue [0x90, 0x01] = 0x0190 := by decide

/-- R100: a HOST write into the region of a pull in flight stops; the byte after the region, and any byte while idle, may be
written. -/
theorem test_host_write :
    nextOf (memWriteTurn 3 0x55 sWait) = none ∧ nextOf (memWriteTurn 0 0x55 sWait) = none ∧
    (nextOf (memWriteTurn 4 0x55 sWait)).map (fun t => t.outmem) = some [(4, 0x55)] ∧
    (nextOf (memWriteTurn 3 0x55 sDone)).map (fun t => t.outmem) = some [(3, 0x55)] := by decide

/-- The canonical form: writing the unlisted value removes the entry. -/
theorem test_memory_canonical :
    Memory.write [(3, 0x55)] 3 0 = [] ∧ Memory.write [(3, 0x55)] 1 0x66 = [(1, 0x66), (3, 0x55)] := by decide

/-- 95 section 1.7: the requests of program P1, with BURST_CAP 256 and 100. -/
theorem test_request_sizes :
    requestSizes 256 256 [100, 100, 56] = [256, 156, 56] ∧ requestSizes 100 256 [100, 100, 56] = [100, 100, 56] := by decide

/-! ## A word placed where the step fetches -/

/-- A beat right after reset is accepted, a command runs, a read answers (log 14). -/
theorem test_fetch_words :
    ((nextOf (step (State.reset.withFetchWord 40 0x000640000))).map fun t => (t.eng.k, t.burst)) = some (1, [(0, 0x00640000)]) ∧
    ((nextOf (step (State.reset.withFetchWord 40 0x300000000))).map State.statusWord) = some 0x0000000A ∧
    ((nextOf (step (State.reset.withFetchWord 32 0x02000001))).map State.statusWord) = some 0x00000001 ∧
    ((nextOf (step (State.reset.withFetchWord 8 0x14))).map fun t => t.trace) = some [.rdata 0x00000100] := by
  refine ⟨by decide, by decide, by decide, by decide⟩

/-! ## Witnesses: the hypotheses of every obligation that has any are met together

Each is about concrete states; a statement with several clauses has one witness for each, at the edge of its range. -/

/-- The states with a schedule. -/
def scheduled (s : State) (es : List Event) : State := { s with schedule := es }

theorem inv_sIssue : sIssue.Inv := by constructor <;> first | exact replays_reset | decide
theorem inv_sWait : sWait.Inv := by constructor <;> first | exact replays_reset | decide
theorem inv_sFull : sFull.Inv := by constructor <;> first | exact replays_reset | decide
theorem inv_sWrite : sWrite.Inv := by constructor <;> first | exact replays_reset | decide
theorem inv_sWritten : sWritten.Inv := by constructor <;> first | exact replays_reset | decide
theorem inv_sLast : sLast.Inv := by constructor <;> first | exact replays_reset | decide
theorem inv_sDone : sDone.Inv := by constructor <;> first | exact replays_reset | decide

/-- ResetFromAnyStateReachesTheResetValues: in the middle of a pull, and with a result and PROTO_ERR held. -/
theorem witness_reset :
    (scheduled sWrite [.reset]).schedule = .reset :: [] ∧ (scheduled sFaulted [.reset]).schedule = .reset :: [] ∧
    sWrite.statusWord ≠ 0 ∧ sFaulted.csr.protoErr = true := by decide

/-- StepRunsTheScheduledHostTransaction. -/
theorem witness_host : (scheduled sWait [.host 0x40 0x00000002]).schedule = .host 0x40 0x00000002 :: [] := rfl

/-- StepAcceptsOrHoldsTheHeadBeat: an accepted Frame, an accepted End with `k = req`, a beat outside WAIT, a Frame with `k = req`. -/
theorem witness_beats :
    (sWait.eng.state = .wait ∧ ((0x000000005#34 : Beat).getLsbD 33 = false → sWait.eng.k.toNat < sWait.eng.req.toNat)) ∧
    (sFull.eng.state = .wait ∧ ((0x200000000#34 : Beat).getLsbD 33 = false → sFull.eng.k.toNat < sFull.eng.req.toNat)) ∧
    sWrite.eng.state ≠ .wait ∧
    ((0x1FFFFFFFF#34 : Beat).getLsbD 33 = false ∧ sFull.eng.k = sFull.eng.req) ∧
    ({ scheduled sFull [.source] with channel := [0x200000000#34] } : State).channel = 0x200000000#34 :: [] := by
  refine ⟨⟨rfl, fun _ => by decide⟩, ⟨rfl, fun h => by revert h; decide⟩, by decide, by decide, rfl⟩

/-- StepTakesTheEnabledEngineStep: its four clauses. -/
theorem witness_engine :
    (State.reset.eng.state = .idle ∧ sWait.eng.state = .wait) ∧ sIssue.eng.state = .issue ∧
    (sWritten.eng.state = .write ∧ sWritten.eng.i = sWritten.eng.k) ∧
    (sWrite.eng.state = .write ∧ sWrite.eng.i.toNat < sWrite.eng.k.toNat) ∧
    (scheduled sWrite [.engine false]).schedule = .engine false :: [] := by decide

/-- StepWithNoEnabledAgentChangesNothing. -/
theorem witness_no_agent :
    sWait.schedule = [] ∧ (scheduled sWait [.source]).schedule = .source :: [] ∧ (scheduled sWait [.source]).channel = [] := by
  decide

/-- PullWhileIdleStartsOrRejects, AckWhileIdleReleasesTheResult: idle with a result held; the shortest and the longest legal length,
0, and the odd edges. -/
theorem witness_pull_and_ack :
    sDone.eng.state = .idle ∧ ((2 : Count) ≠ 0 ∧ (2 : Count).getLsbD 0 = false) ∧
    ((0xFFFE : Count) ≠ 0 ∧ (0xFFFE : Count).getLsbD 0 = false) ∧
    (1 : Count).getLsbD 0 = true ∧ (0xFFFF : Count).getLsbD 0 = true := by decide

/-- CommandsWhileBusyAreDroppedWithProtoErr, ConfigurationWritesWhileIdleAndBusy, BusTransactionsNeverDisturbAPullInFlight,
ConfigurationIsConstantDuringAPull: every busy state of the engine; opcodes 1 and 15. -/
theorem witness_busy :
    sIssue.eng.state ≠ .idle ∧ sWait.eng.state ≠ .idle ∧ sWrite.eng.state ≠ .idle ∧
    (0xFFFFFFF1#32).extractLsb' 0 4 ≠ 0 ∧ (0x0000000F#32).extractLsb' 0 4 ≠ 0 ∧
    (scheduled sWait [.host 0x4C 8]).schedule = .host 0x4C 8 :: [] ∧
    nextOf (step (scheduled sWait [.host 0x4C 8])) = some sWait.flagProtocolError ∧
    (scheduled sWait [.host 0x4C 8]).schedule.head? ≠ some .reset := by decide

/-- ConfigurationWritesWhileIdleAndBusy, ConfigurationWriteReadsBackAtOnce, PseudoInstructionsAreTheirTransactions: idle. -/
theorem witness_idle : State.reset.eng.state = .idle ∧ sDone.eng.state = .idle := by decide

/-- EveryCsrReadIsIdempotentAndChangesNoState: a read of each kind of slot, the first and the last reserved ones among them. -/
theorem witness_reads :
    ∀ t ∈ ([0x00, 0x04, 0x0C, 0x14, 0x18, 0x1C, 0x20, 0x3F] : List Descriptor), t.getLsbD 6 = false := by decide

/-- The slots those descriptors address. -/
theorem witness_read_slots :
    (0x00#7).extractLsb' 2 4 = 0 ∧ (0x07#7).extractLsb' 2 4 = 1 ∧ (0x0C#7).extractLsb' 2 4 = 3 ∧
    (0x14#7).extractLsb' 2 4 = 5 ∧ (0x18#7).extractLsb' 2 4 = 6 ∧ ((0x1C#7).extractLsb' 2 4).toNat = 7 ∧
    ((0x3F#7).extractLsb' 2 4).toNat = 15 := by decide

/-- CsrWriteChangesOnlyItsRegisterAndProtoErr: the first and the last slot but CTRL, and the three configuration registers; each
register's clause by a write of another. -/
theorem witness_writes :
    (∀ t ∈ ([0x44, 0x48, 0x4C, 0x50, 0x7F] : List Descriptor), t.getLsbD 6 = true ∧ t.extractLsb' 2 4 ≠ 0) ∧
    (0x44#7).extractLsb' 2 4 ≠ 2 ∧ (0x48#7).extractLsb' 2 4 ≠ 3 ∧ (0x4C#7).extractLsb' 2 4 ≠ 4 := by decide

/-- FrameBeatFillsTheNextBurstEntry, BeatsAreRefusedWithoutEffect, EndOkMovesToWrite, EndFaultCompletesThePullWithFault. -/
theorem witness_source_beats :
    (sWait.eng.state = .wait ∧ sWait.eng.k.toNat < sWait.eng.req.toNat ∧ (0 : Count) ≠ sWait.eng.k) ∧
    sDone.eng.state ≠ .wait ∧ sFull.eng.k = sFull.eng.req ∧ sFull.eng.state = .wait := by decide

/-- IssueCompletesOrRequestsTheNextRead: both clauses. -/
theorem witness_issue :
    ((scheduled sLast [.engine true]).Inv ∧ sLast.eng.state = .issue ∧ sLast.eng.produced = sLast.eng.len) ∧
    ((scheduled sIssue [.engine false]).Inv ∧ sIssue.eng.state = .issue ∧ sIssue.eng.produced ≠ sIssue.eng.len) := by
  refine ⟨⟨by constructor <;> first | exact replays_reset | decide, by decide, by decide⟩,
    ⟨by constructor <;> first | exact replays_reset | decide, by decide, by decide⟩⟩

/-- WriteSampleWritesTheConvertedFrameAtTheCursor, WriteSampleReadsOnlyWrittenBurstEntries: the Sample straddles the top of the
address space. -/
theorem witness_write_sample :
    (scheduled sWrite [.engine true]).schedule = .engine true :: [] ∧ sWrite.Inv ∧ sWrite.eng.state = .write ∧
    sWrite.eng.i.toNat < sWrite.eng.k.toNat ∧ sWrite.cursorAddr = 0xFFFFFFFF := by
  refine ⟨by decide, inv_sWrite, by decide, by decide, by decide⟩

/-- SampleIsWrittenLittleEndianAtAnyAddress: a canonical memory with an entry. -/
theorem witness_memory : Memory.wf [(0, 0x55), (0xFFFFFFFF, 0xAA)] := by decide

/-- ConvertAtResetIsTimesFourSaturated: the edges 8192, 8191, -8191, -8192. -/
theorem witness_convert_edges :
    8192 ≤ ((0x20000000 : Frame).extractLsb' 16 16).toInt ∧ ((0x1FFF0000 : Frame).extractLsb' 16 16).toInt = 8191 ∧
    ((0xE0010000 : Frame).extractLsb' 16 16).toInt = -8191 ∧ ((0xE0000000 : Frame).extractLsb' 16 16).toInt ≤ -8192 := by
  decide

/-- ConvertIsTheFlooredProductSaturated: equal bounds 5 and 5, with the product inside, below and above them. -/
theorem witness_convert_bounds :
    (configured 1 0x00050005).clampLo.toInt ≤ (configured 1 0x00050005).clampHi.toInt ∧
    (configured 1 0x00050005).scaled 0x00050000 = 5 ∧ (configured 1 0x00050005).scaled 0x00040000 < 5 ∧
    5 < (configured 1 0x00050005).scaled 0x00060000 := by decide

/-- InvertedBoundsConvertEveryFrameToTheUpperBound: bounds inverted by one. -/
theorem witness_inverted : (configured 4 0x00040005).clampHi.toInt < (configured 4 0x00040005).clampLo.toInt := by decide

/-- ConvertDependsOnTheUpperHalfAndConfigurationAlone: CSR files and Frames that differ elsewhere. -/
theorem witness_pure :
    (0x00640000 : Frame).extractLsb' 16 16 = (0x0064FFFF : Frame).extractLsb' 16 16 ∧
    Csr.reset.gain = sFaulted.csr.gain ∧ Csr.reset.shift = sFaulted.csr.shift ∧
    Csr.reset.clampLo = sFaulted.csr.clampLo ∧ Csr.reset.clampHi = sFaulted.csr.clampHi ∧ Csr.reset ≠ sFaulted.csr := by
  decide

/-- The stop of OnlyAHostWriteIntoTheBusyRegionStops: the last byte of the region. -/
theorem witness_stop : step (scheduled sWait [.memWrite 3 0x55]) = .fault .hostWroteRegion := rfl

/-- OnlyTheListedStepsChangeDone: a step of each kind, and DONE after it. -/
theorem witness_done :
    (nextOf (step (scheduled sLast [.engine true]))).map State.irq = some true ∧
    (nextOf (step { scheduled sWait [.source] with channel := [endFaultBeat] })).map State.irq = some true ∧
    (nextOf (step (scheduled State.reset [.host 0x40 0x00070001]))).map State.irq = some true ∧
    (nextOf (step (scheduled sDone [.host 0x40 0x00020001]))).map State.irq = some false ∧
    (nextOf (step (scheduled sDone [.host 0x40 0x00000002]))).map State.irq = some false ∧
    (nextOf (step (scheduled sDone [.reset]))).map State.irq = some false ∧
    (nextOf (step (scheduled sDone [.host 0x44 0]))).map State.irq = some true := by decide

/-- ResultTellsHowThePullEnded and PullStartsAndEndsOnlyByTheListedSteps: a step of each kind, and STATUS after it. -/
theorem witness_result :
    (nextOf (step (scheduled sLast [.engine true]))).map State.statusWord = some 0x00040006 ∧
    (nextOf (step { scheduled sWait [.source] with channel := [endFaultBeat] })).map State.statusWord = some 0x0000000A ∧
    (nextOf (step (scheduled sDone [.host 0x40 0x00070001]))).map State.statusWord = some 0x0000000E ∧
    (nextOf (step (scheduled sDone [.host 0x40 0x00040001]))).map State.statusWord = some 0x00000001 ∧
    (nextOf (step (scheduled sDone [.host 0x40 0x00000002]))).map State.statusWord = some 0x00040000 ∧
    (nextOf (step (scheduled sWait [.reset]))).map State.statusWord = some 0x00000000 ∧
    (nextOf (step (scheduled sDone [.host 0x40 0x00000003]))).map State.statusWord = some 0x00040016 := by decide

/-- ProtoErrIsStickyAndSetByTheListedEvents: a step of each kind, and PROTO_ERR after it. -/
theorem witness_proto_err :
    (nextOf (step (scheduled sWait [.host 0x40 0x00000001]))).map (fun t => t.csr.protoErr) = some true ∧
    (nextOf (step (scheduled State.reset [.host 0x40 0x00000003]))).map (fun t => t.csr.protoErr) = some true ∧
    (nextOf (step (scheduled sWait [.host 0x50 0]))).map (fun t => t.csr.protoErr) = some true ∧
    (nextOf (step (scheduled sFaulted [.host 0x40 0x00040001]))).map (fun t => t.csr.protoErr) = some true ∧
    (nextOf (step (scheduled sFaulted [.host 0x40 0x00000002]))).map (fun t => t.csr.protoErr) = some false ∧
    (nextOf (step (scheduled sFaulted [.reset]))).map (fun t => t.csr.protoErr) = some false := by decide

/-- ProducedChangesOnlyByTheListedSteps: a step of each kind, and PRODUCED after it. -/
theorem witness_produced :
    (nextOf (step (scheduled sWrite [.reset]))).map (fun t => t.eng.produced) = some 0 ∧
    (nextOf (step (scheduled sDone [.host 0x40 0x00070001]))).map (fun t => t.eng.produced) = some 0 ∧
    sWrite.takesWriteSample (.engine true) = true ∧
    (nextOf (step (scheduled sWrite [.engine true]))).map (fun t => t.eng.produced) = some 4 ∧
    sWrite.takesWriteSample (.engine false) = false ∧
    (nextOf (step (scheduled sWrite [.engine false]))).map (fun t => t.eng.produced) = some 2 := by decide

/-- OutputWritesStayInTheRegionInOrder and EveryStepKeepsTheInvariant: a step that changes a byte. -/
theorem witness_output_write :
    (scheduled sWrite [.engine true]).Inv ∧ step (scheduled sWrite [.engine true]) = .next sWrite.writeSample ∧
    (∀ e rest, (scheduled sWrite [.engine true]).schedule = e :: rest → e.isMemWrite = false) ∧
    Memory.read sWrite.writeSample.outmem 0 ≠ Memory.read sWrite.outmem 0 := by
  refine ⟨by constructor <;> first | exact replays_reset | decide, rfl, fun e rest h => ?_, by decide⟩
  cases h
  rfl

/-- NoOutputWriteWhileAResultIsHeld. -/
theorem witness_held :
    (scheduled sDone [.engine true]).Inv ∧ sDone.csr.done = true ∧ step (scheduled sDone [.engine true]) = .next sDone ∧
    ∀ e rest, (scheduled sDone [.engine true]).schedule = e :: rest → e.isMemWrite = false := by
  refine ⟨by constructor <;> first | exact replays_reset | decide, rfl, rfl, fun e rest h => ?_⟩
  cases h
  rfl

/-- `sWrite` over bytes that an earlier pull wrote and the HOST never acquired: 0x11 at 0xFFFFFFFF. -/
def sRewrite : State :=
  { sWrite with
    outmem := [(0xFFFFFFFF, 0x11)]
    host := { HostSide.reset with unacquired := [(0xFFFFFFFF, 0x11)] } }

theorem inv_sRewrite : sRewrite.Inv := by
  constructor <;> first | decide | skip
  exact fun a => ⟨rfl, by
    by_cases h : 0xFFFFFFFF = a.toNat <;>
      simp [sRewrite, HostSide.reset, lastAt, writtenAt, Memory.read, cellLookup, h]⟩

/-- R99: the byte's value before the pull, 0x11, and the value the pull writes, 0xFC, are both admitted once it is written, after a
reset in the middle of the pull too; before the write the new value is not. -/
theorem test_host_race :
    sRewrite.host.admitted 0xFFFFFFFF = [0x00, 0x11] ∧ sRewrite.writeSample.host.admitted 0xFFFFFFFF = [0x00, 0x11, 0xFC] ∧
    sRewrite.writeSample.onReset.host.admitted 0xFFFFFFFF = [0x00, 0x11, 0xFC] := by decide

/-- R98: once the HOST has seen DONE = 1 and done its maintenance, only the new value is admitted. -/
theorem test_host_race_ends : sRewrite.writeSample.acquire.maintain.host.admitted 0xFFFFFFFF = [0xFC] := by
  simp [HostSide.admitted, State.maintain, State.acquire]
  decide

/-- IrqIsTheLevelOfDone, HostReadsAfterDoneReturnTheWrittenBytes, and the first two clauses of HostReadReturnsOldOrNewByte.
(Whether `Config.hostSeesWrites` is true the platform decides, log 10.) -/
theorem witness_host_side :
    (scheduled sDone [.watchIrq]).schedule = .watchIrq :: [] ∧
    (scheduled sWrite.writeSample [.memRead 0xFFFFFFFF 2]).schedule = .memRead 0xFFFFFFFF 2 :: [] ∧
    (0xFC : Byte) ∈ sRewrite.writeSample.host.admitted 0xFFFFFFFF ∧
    sDone.csr.done = true := by decide

/-- HostReadReturnsOldOrNewByte, the clause over a run: one step that overwrites the last byte of the address space, before it (`m = 0`)
and after it (`m = 1`). -/
theorem witness_host_race :
    (scheduled sRewrite [.engine true]).Inv ∧ (scheduled sRewrite [.engine true]).inRegion 0xFFFFFFFF = true ∧
    (∀ m u, m < 1 → Host.Core.run Sys2Proof.core m (scheduled sRewrite [.engine true]) = .next u → u.eng.state ≠ .idle) ∧
    Host.Core.run Sys2Proof.core 1 (scheduled sRewrite [.engine true]) = .next sRewrite.writeSample ∧
    Memory.read sRewrite.outmem 0xFFFFFFFF = 0x11 ∧ Memory.read sRewrite.writeSample.outmem 0xFFFFFFFF = 0xFC := by
  refine ⟨?_, by decide, fun m u hm h => ?_, rfl, by decide, by decide⟩
  · obtain ⟨h1, h2, h3, h4, h5, h6, h7, h8, h9, h10, h11, h12, h13⟩ := inv_sRewrite
    constructor <;> assumption
  · obtain rfl : m = 0 := by omega
    cases h
    decide

/-- DecodeInvertsEncode: the terms WellFormed has a check for, at the edges. -/
theorem witness_wf :
    (Instr.reservedCmd4to7 0xFFFF 0xFFF 4).wf = true ∧ (Instr.reservedCmd4to7 0 0 7).wf = true ∧
    (Instr.reservedCmd8to15 0 0 8).wf = true ∧ (Instr.rdRsv20to3F 8 3).wf = true ∧ (Instr.wrRsv60to7F 15 3 1).wf = true := by
  decide

/-- EveryTransactionLiesInExactlyOneRow: a row that covers a transaction and one that does not. -/
theorem witness_rows :
    (⟨.bus, 0x60, 0x60⟩ : Row) ∈ opcodeTable ∧ (⟨.bus, 0x60, 0x60⟩ : Row).covers (.bus 0x7F 5) = true ∧
    (⟨.bus, 0x5C, 0x7C⟩ : Row) ∈ opcodeTable ∧ (⟨.bus, 0x5C, 0x7C⟩ : Row).covers (.bus 0x7F 5) = false := by decide

/-- A state ready to run a pull: HELD result, one leftover beat behind the answers. -/
def sPull (len : Count) (bursts : List (List Frame)) : State :=
  { sDone with
    csr := { sDone.csr with bufBase := 0xFFFFFFFE }
    channel := bursts.flatMap answerOk ++ [endOkBeat]
    schedule := okPullTurns len bursts }

/-- PullWritesExactlyTheConvertedFramesInOrder, PullRequestsTheRemainingSamples: program P4 of 95, an empty read and two short ones, the region wrapping. -/
theorem witness_whole_pull :
    (sPull 4 [[], [0x00640000], [0xFFFF0000]]).Inv ∧ (sPull 4 [[], [0x00640000], [0xFFFF0000]]).eng.state = .idle ∧
    (4 : Count).toNat = 2 * ([[], [0x00640000], [0xFFFF0000]] : List (List Frame)).flatten.length ∧
    ([[], [0x00640000], [0xFFFF0000]] : List (List Frame)).getLast? = some (0xFFFF0000 :: []) ∧
    (∀ b ∈ ([[], [0x00640000], [0xFFFF0000]] : List (List Frame)), b.length ≤ Csr.reset.burstCap.toNat) := by
  refine ⟨by constructor <;> first | exact replays_reset | decide, by decide, by decide, by decide, by decide⟩

/-- `sPull` on a block whose BURST_CAP is 2. -/
def sPullCapped (len : Count) (bursts : List (List Frame)) : State :=
  { sPull len bursts with csr := { (sPull len bursts).csr with burstCap := 2 } }

/-- PullRequestsTheRemainingSamples, the reads that deliver all they are asked for: three Samples in reads of 2 and 1. -/
theorem witness_full_reads :
    let bursts : List (List Frame) := [[0x00010000, 0x00020000], [0x00030000]]
    (sPullCapped 6 bursts).Inv ∧ (sPullCapped 6 bursts).eng.state = .idle ∧
    (6 : Count).toNat = 2 * bursts.flatten.length ∧ bursts.getLast? = some (0x00030000 :: []) ∧
    (∀ b ∈ bursts, b.length ≤ (sPullCapped 6 bursts).csr.burstCap.toNat) ∧
    (sPullCapped 6 bursts).channel = bursts.flatMap answerOk ++ [endOkBeat] ∧
    (sPullCapped 6 bursts).schedule = okPullTurns 6 bursts ∧
    bursts.map List.length =
      requestSizes (sPullCapped 6 bursts).csr.burstCap.toNat ((6 : Count).toNat / 2) (bursts.map List.length) := by
  refine ⟨by constructor <;> first | exact replays_reset | decide, by decide, by decide, by decide, by decide, rfl, rfl,
    by decide⟩

/-- FaultedPullKeepsExactlyTheWrittenPrefix: program P3 of 95. -/
theorem witness_faulted_pull :
    let s : State :=
      { State.reset with
        channel := answerOk [0x00010000, 0x00020000] ++ answerFault [0x00030000]
        schedule := faultPullTurns 8 [[0x00010000, 0x00020000]] [0x00030000] }
    s.Inv ∧ s.eng.state = .idle ∧ (8 : Count).toNat % 2 = 0 ∧ 2 * (2 + 1) ≤ (8 : Count).toNat ∧ 2 * 2 < (8 : Count).toNat ∧
    2 ≤ s.csr.burstCap.toNat ∧
    s.channel = [[0x00010000, 0x00020000]].flatMap answerOk ++ (answerFault [0x00030000] ++ []) := by
  refine ⟨by constructor <;> first | exact replays_reset | decide, by decide, by decide, by decide, by decide, by decide, by decide⟩

/-- EmptyReadReissuesTheSameRequest. -/
theorem witness_empty_read :
    let s : State := { scheduled sIssue [.engine true, .source, .engine false, .engine true] with channel := [0x2DEADBEEF#34] }
    s.Inv ∧ s.eng.state = .issue ∧ s.eng.produced ≠ s.eng.len ∧ s.channel = 0x2DEADBEEF#34 :: [] ∧
    (0x2DEADBEEF#34 : Beat).extractLsb' 32 2 = 2 ∧
    s.schedule = [.engine true, .source, .engine false, .engine true] ++ [] := by
  refine ⟨by constructor <;> first | exact replays_reset | decide, by decide, by decide, by decide, by decide, by decide⟩

/-- StuckPullsHold: no End beat, a Frame beyond the request, a stalled OUTMEM. -/
theorem witness_stuck :
    (sWait.eng.state = .wait ∧ sWait.channel = [] ∧ ∀ e ∈ [Event.source, .engine true], e = .source ∨ ∃ a, e = .engine a) ∧
    (sFull.eng.state = .wait ∧ (frameBeat 5).getLsbD 33 = false ∧ sFull.eng.k = sFull.eng.req) ∧
    (sWrite.eng.state = .write ∧ sWrite.eng.i.toNat < sWrite.eng.k.toNat ∧
      ∀ e ∈ [Event.engine false, .source], e = .source ∨ e = .engine false) := by
  refine ⟨⟨rfl, rfl, by simp⟩, ⟨rfl, by decide, rfl⟩, ⟨rfl, by decide, by simp⟩⟩

end Sys2Proof.Tests
end

/-! # The HOST's turn runs a well-formed instruction -/

namespace Sys2Proof

/-! ## The BUS decoder answers well-formed instructions only

Of the rows of R112 only the one for the slots 8 to 15 has a side condition, and the decoder reaches it after 0 to 7. -/

theorem decodeRead_wf (slot : BitVec 4) (lane : BitVec 2) : (decodeRead slot lane).wf = true := by
  unfold decodeRead
  split
  case h_9 => simp only [Instr.wf, decide_eq_true_eq, imp_false] at *; omega
  all_goals rfl

theorem decodeWrite_wf (slot : BitVec 4) (lane : BitVec 2) (w : Word) : (decodeWrite slot lane w).wf = true := by
  unfold decodeWrite
  split
  case h_9 => simp only [Instr.wf, decide_eq_true_eq, imp_false] at *; omega
  all_goals rfl

theorem decodeBus_wf (t : Descriptor) (w : Word) : (decodeBus t w).wf = true := by
  unfold decodeBus
  split
  · exact decodeWrite_wf ..
  · exact decodeRead_wf ..

end Sys2Proof

namespace Sys2Proof.Machine

theorem runEvent_host (t : Descriptor) (w : Word) (s : State) :
    runEvent (.host t w) s = exec (decode (.bus t w)) s := rfl

/-- Settles O3: the step is the turn of the event at the schedule's head, and the HOST's turn is `exec` of the decoded
transaction. -/
theorem stepRunsTheScheduledHostTransaction : Obligations.StepRunsTheScheduledHostTransaction := by
  intro s t w rest hs
  exact ⟨decodeBus_wf t w, (step_cons hs).trans (runEvent_host t w _)⟩

end Sys2Proof.Machine

/-! # What a step does to the CSR file and the engine (10_state.md)

`step_effect` says it once for every event of the schedule, with the kinds of step that 10_state.md lists kept apart; the
statements about DONE, RESULT, PROTO_ERR, PRODUCED and the configuration are read off it. -/

namespace Sys2Proof.Machine

/-! ## The kinds of step exclude each other -/

section Kinds

variable {s : State} {e : Event}

/-- A beat is accepted in WAIT alone. -/
theorem acceptsBeat_wait {b : Beat} (h : s.acceptsBeat b = true) : s.eng.state = .wait := by
  unfold State.acceptsBeat at h
  split at h
  · simpa [State.acceptsEnd] using h
  · exact (by simpa [State.acceptsFrame] using h : _ ∧ _).1

/-- `complete` is reached from ISSUE by the ENGINE's turn, or from WAIT by the SOURCE's. -/
theorem completes_agent (h : s.completes e) :
    (s.eng.state = .issue ∧ ∃ a, e = .engine a) ∨ (s.eng.state = .wait ∧ e = .source) := by
  obtain ⟨hs, -, ha⟩ | ⟨b, hb, -, -⟩ := h
  · exact Or.inl ⟨hs, ha⟩
  · unfold State.acceptedBeat at hb
    split at hb
    · split at hb
      · next hacc => exact Or.inr ⟨acceptsBeat_wait hacc, rfl⟩
      · cases hb
    · cases hb

theorem not_completes_of_ne (h : ∀ a, e ≠ .engine a) (h' : e ≠ .source) : ¬ s.completes e := by
  intro hc
  obtain ⟨-, a, ha⟩ | ⟨-, ha⟩ := completes_agent hc
  · exact h a ha
  · exact h' ha

theorem completes_engine_iff {a : Bool} :
    s.completes (.engine a) ↔ s.eng.state = .issue ∧ s.eng.produced = s.eng.len := by
  simp [State.completes, State.acceptedBeat]

theorem not_completes_source_of_empty (hc : s.channel = []) : ¬ s.completes .source := by
  simp [State.completes, State.acceptedBeat, hc]

theorem completes_source_iff {b : Beat} {more : List Beat} (hc : s.channel = b :: more) :
    s.completes .source ↔ s.acceptsBeat b = true ∧ b.getLsbD 33 = true ∧ b.getLsbD 32 = true := by
  simp [State.completes, State.acceptedBeat, hc]

theorem takesWriteSample_engine_iff {a : Bool} :
    s.takesWriteSample (.engine a) = true ↔ s.eng.state = .write ∧ s.eng.i.toNat < s.eng.k.toNat ∧ a = true := by
  simp [State.takesWriteSample, and_assoc]

theorem command_exclusive {w : Word} (h : e.command = some w) :
    e ≠ .reset ∧ e.writesConfig = false ∧ ¬ s.completes e ∧ s.takesWriteSample e = false := by
  cases e with
  | host d v =>
    have hslot : slotOf d = 0 := by
      simp only [Event.command] at h
      split at h
      · next hctrl => exact hctrl.2
      · cases h
    exact ⟨nofun, by simp [Event.writesConfig, hslot], not_completes_of_ne nofun nofun, rfl⟩
  | _ => cases h

theorem writesConfig_exclusive (h : e.writesConfig = true) :
    e ≠ .reset ∧ e.command = none ∧ ¬ s.completes e ∧ s.takesWriteSample e = false := by
  have hcmd : e.command = none := by
    refine Option.eq_none_iff_forall_ne_some.2 fun w hw => ?_
    rw [(command_exclusive (s := s) hw).2.1] at h
    cases h
  cases e with
  | host d v => exact ⟨nofun, hcmd, not_completes_of_ne nofun nofun, rfl⟩
  | _ => cases h

theorem completes_exclusive (h : s.completes e) :
    e ≠ .reset ∧ e.command = none ∧ e.writesConfig = false ∧ s.takesWriteSample e = false := by
  obtain ⟨hs, a, rfl⟩ | ⟨-, rfl⟩ := completes_agent h
  · exact ⟨nofun, rfl, rfl, by simp [State.takesWriteSample, hs]⟩
  · exact ⟨nofun, rfl, rfl, rfl⟩

theorem takesWriteSample_exclusive (h : s.takesWriteSample e = true) :
    e ≠ .reset ∧ e.command = none ∧ e.writesConfig = false ∧ ¬ s.completes e := by
  cases e with
  | engine a =>
    obtain ⟨hs, -, -⟩ := takesWriteSample_engine_iff.1 h
    exact ⟨nofun, rfl, rfl, by simp [completes_engine_iff, hs]⟩
  | _ => cases h

end Kinds

/-! ## What a command does -/

/-- PULL's length check in the words of R172: not 0, and bit 0 clear. -/
theorem length_legal_iff (n : Count) :
    (n.toNat ≠ 0 ∧ n.toNat % 2 = 0) ↔ (n ≠ 0#16 ∧ n.getLsbD 0 = false) := by
  have hzero : n.toNat ≠ 0 ↔ n ≠ 0#16 := by simp [BitVec.toNat_eq]
  have heven : n.toNat % 2 = 0 ↔ n.getLsbD 0 = false := by
    simp [BitVec.getLsbD, -BitVec.getLsbD_eq_getElem, Nat.testBit_zero]
  rw [hzero, heven]

/-- What a command word does to the CSR file `c` and the engine `g`, by its opcode, idle or busy (R170 to R176). -/
inductive CommandEffect (w : Word) (c : Csr) (g : Engine) (c' : Csr) (g' : Engine) : Prop
  | nop (hop : opOf w = 0) (hcsr : c' = c) (heng : g' = g)
  | dropped (hs : g.state ≠ .idle) (hop : opOf w ≠ 0) (hcsr : c' = { c with protoErr := true }) (heng : g' = g)
  | reserved (hs : g.state = .idle) (hop : 3 ≤ (opOf w).toNat) (hcsr : c' = { c with protoErr := true })
      (heng : g' = g)
  | accepted (hs : g.state = .idle) (hop : opOf w = 1) (hne : lenOf w ≠ 0#16) (heven : (lenOf w).getLsbD 0 = false)
      (hcsr : c' = { c with result := .none, done := false })
      (heng : g' = { g with len := lenOf w, produced := 0, state := .issue })
  | rejected (hs : g.state = .idle) (hop : opOf w = 1) (hlen : lenOf w = 0#16 ∨ (lenOf w).getLsbD 0 = true)
      (hcsr : c' = { c with result := .rejected, done := true })
      (heng : g' = { g with len := lenOf w, produced := 0 })
  | released (hs : g.state = .idle) (hop : opOf w = 2)
      (hcsr : c' = { c with done := false, result := .none, protoErr := false }) (heng : g' = g)

/-- A guarded command is dropped while busy, whatever its effect while idle. -/
theorem whenIdle_effect {w : Word} {s : State} {effect : State → State} (hop : opOf w ≠ 0)
    (h : s.eng.state = .idle → CommandEffect w s.csr s.eng (effect s).csr (effect s).eng) :
    CommandEffect w s.csr s.eng (s.whenIdle effect).csr (s.whenIdle effect).eng := by
  rcases whenIdle_cases s effect with ⟨hs, ht⟩ | ⟨hs, ht⟩ <;> rw [ht]
  · exact h hs
  · exact .dropped hs hop rfl rfl

theorem startPull_effect {w : Word} {s : State} (hop : opOf w = 1) (hs : s.eng.state = .idle) :
    CommandEffect w s.csr s.eng (s.startPull (lenOf w)).csr (s.startPull (lenOf w)).eng := by
  rcases startPull_cases (lenOf w) s with ⟨hlen, ht⟩ | ⟨hlen, ht⟩ <;> rw [ht] <;> rw [length_legal_iff] at hlen
  · exact .accepted hs hop hlen.1 hlen.2 rfl rfl
  · exact .rejected hs hop (by simpa only [not_and_or, ne_eq, not_not, Bool.not_eq_false] using hlen) rfl rfl

theorem runCommandWord_effect {w : Word} {s t : State} (h : runCommandWord w s = .next t) :
    CommandEffect w s.csr s.eng t.csr t.eng := by
  have hopcode : ∀ n < 16, (opOf w).toNat = n → opOf w = BitVec.ofNat 4 n := fun n hn => (four_bit_eq_iff _ n hn).2
  rcases runCommandWord_cases w s with ⟨hop, hr⟩ | ⟨hop, hr⟩ | ⟨hop, hr⟩ | ⟨hop, hr⟩ <;> rw [hr] at h <;> cases h
  · exact .nop (hopcode 0 (by omega) hop) rfl rfl
  all_goals refine whenIdle_effect (fun h0 => by simp [h0] at hop) fun hs => ?_
  · exact startPull_effect (hopcode 1 (by omega) hop) hs
  · exact .released hs (hopcode 2 (by omega) hop) rfl rfl
  · exact .reserved hs hop rfl rfl

/-- A reserved opcode is neither PULL nor ACK. -/
theorem reserved_opcode_ne {w : Word} (hop : 3 ≤ (opOf w).toNat) : opOf w ≠ 1#4 ∧ opOf w ≠ 2#4 := by
  constructor <;> intro h <;> simp [h] at hop

/-! ## What an event does -/

/-- What the step of an event does to the CSR file and the engine, by the kind of the event. -/
inductive StepEffect (s : State) (e : Event) (t : State) : Prop
  | reset (he : e = .reset) (hcsr : t.csr = { Csr.reset with burstCap := s.csr.burstCap }) (heng : t.eng = Engine.reset)
  | command (w : Word) (he : e.command = some w) (heff : CommandEffect w s.csr s.eng t.csr t.eng)
  | configBusy (he : e.writesConfig = true) (hs : s.eng.state ≠ .idle) (hcsr : t.csr = { s.csr with protoErr := true })
      (heng : t.eng = s.eng)
  | configIdle (he : e.writesConfig = true) (hs : s.eng.state = .idle) (hdone : t.csr.done = s.csr.done)
      (hresult : t.csr.result = s.csr.result) (herr : t.csr.protoErr = s.csr.protoErr)
      (hcap : t.csr.burstCap = s.csr.burstCap) (heng : t.eng = s.eng)
  | complete (he : s.completes e)
      (hcsr : t.csr = { s.csr with result := if s.eng.state = .issue then .ok else .fault, done := true })
      (heng : t.eng = { s.eng with state := .idle })
  | writeSample (he : s.takesWriteSample e = true) (hcsr : t.csr = s.csr)
      (heng : t.eng = { s.eng with produced := s.eng.produced + 2, i := s.eng.i + 1 })
  | other (hr : e ≠ .reset) (hcmd : e.command = none) (hcfg : e.writesConfig = false) (hcomp : ¬ s.completes e)
      (hws : s.takesWriteSample e = false) (hcsr : t.csr = s.csr) (hprod : t.eng.produced = s.eng.produced)
      (hidle : t.eng.state = .idle ↔ s.eng.state = .idle)

section Agents

variable {s t : State}

theorem hostTurn_effect {d : Descriptor} {w : Word} (h : hostTurn d w s.popped = .next t) :
    StepEffect s (.host d w) t := by
  rcases host_cases d w s.popped with
    ⟨v, hr, hcmd, hcfg⟩ | ⟨hr, hcmd, hcfg⟩ | ⟨hr, hcmd, hcfg⟩ | ⟨hr, hcmd, hcfg⟩ | ⟨hr, hcmd, -⟩
  case inr.inr.inr.inl =>
    rcases hr with hr | hr | hr <;> rw [hr] at h <;> cases h
    all_goals
      rcases whenIdle_cases s.popped _ with ⟨hs, ht⟩ | ⟨hs, ht⟩ <;> rw [ht]
      · exact .configIdle hcfg hs rfl rfl rfl rfl rfl
      · exact .configBusy hcfg hs rfl rfl
  case inr.inr.inr.inr => exact .command w hcmd (runCommandWord_effect (s := s.popped) (hr ▸ h))
  all_goals
    rw [hr] at h
    cases h
    exact .other nofun hcmd hcfg (not_completes_of_ne nofun nofun) rfl (by simp) (by simp) (by simp)

theorem engineStep_effect (s : State) (a : Bool) : StepEffect s (.engine a) (s.popped.engineStep a) := by
  have quiet {u : State} (hcomp : ¬(s.eng.state = .issue ∧ s.eng.produced = s.eng.len))
      (hws : ¬(s.eng.state = .write ∧ s.eng.i.toNat < s.eng.k.toNat ∧ a = true)) (hcsr : u.csr = s.csr)
      (hprod : u.eng.produced = s.eng.produced) (hidle : u.eng.state = .idle ↔ s.eng.state = .idle) :
      StepEffect s (.engine a) u :=
    .other nofun rfl rfl (by rwa [completes_engine_iff])
      (Bool.eq_false_iff.2 (by rwa [ne_eq, takesWriteSample_engine_iff])) hcsr hprod hidle
  rcases engineStep_cases s.popped a with ⟨hs, ht⟩ | ⟨hs, hik, ht⟩ | ⟨hs, hik, ha, ht⟩ | ⟨hi, -, hw, ht⟩ <;> rw [ht] <;>
    simp only [popped_eng] at *
  · rcases issue_cases s.popped with ⟨hp, ht⟩ | ⟨hp, ht⟩ <;> rw [ht]
    · exact .complete (completes_engine_iff.2 ⟨hs, hp⟩) (by simp [hs]) rfl
    · exact quiet (fun h => hp h.2) (by simp [hs]) rfl rfl (by simp [hs])
  · exact quiet (by simp [hs]) (by simp [hik]) rfl rfl (by simp [hs])
  · exact .writeSample (takesWriteSample_engine_iff.2 ⟨hs, hik, ha⟩) rfl rfl
  · exact quiet (fun h => hi h.1) hw rfl rfl Iff.rfl

theorem sourceTurn_effect (h : sourceTurn s.popped = .next t) : StepEffect s .source t := by
  have quiet {u : State} (hcomp : ¬ s.completes .source) (hcsr : u.csr = s.csr) (hprod : u.eng.produced = s.eng.produced)
      (hidle : u.eng.state = .idle ↔ s.eng.state = .idle) : StepEffect s .source u :=
    .other nofun rfl rfl hcomp rfl hcsr hprod hidle
  rcases sourceTurn_cases s.popped with
    ⟨hc, hr⟩ | ⟨b, more, hc, ⟨ha, hr⟩ | ⟨hk, -, -, hr⟩ | ⟨-, hst, hs, hr⟩ | ⟨hk, hst, hs, hr⟩⟩ <;>
    rw [hr] at h <;> cases h <;> rw [popped_channel] at hc
  · exact quiet (not_completes_source_of_empty hc) rfl rfl Iff.rfl
  · exact quiet (by rw [completes_source_iff hc, show s.acceptsBeat b = false from ha]; simp) rfl rfl Iff.rfl
  · exact quiet (by rw [completes_source_iff hc, hk]; simp) rfl rfl (by simp)
  · exact quiet (by rw [completes_source_iff hc, hst]; simp) rfl rfl (by simp [show s.eng.state = _ from hs])
  · have hs : s.eng.state = .wait := hs
    have ha : s.acceptsBeat b = true := by rw [State.acceptsBeat, hk]; simp [State.acceptsEnd, hs]
    exact .complete ((completes_source_iff hc).2 ⟨ha, hk, hst⟩) (by simp [hs]) rfl

/-- The step of the event at the head of the schedule. -/
theorem step_effect {e : Event} {rest : List Event} (hs : s.schedule = e :: rest) (h : step s = .next t) :
    StepEffect s e t := by
  have h : runEvent e s.popped = .next t := by
    rw [← h, step_cons hs, State.popped, hs]
    rfl
  have quiet (he : e.command = none ∧ e.writesConfig = false ∧ s.takesWriteSample e = false)
      (hne : (∀ a, e ≠ .engine a) ∧ e ≠ .source ∧ e ≠ .reset) (hcsr : t.csr = s.csr) (heng : t.eng = s.eng) :
      StepEffect s e t := by
    obtain ⟨hcmd, hcfg, hws⟩ := he
    obtain ⟨hengine, hsource, hreset⟩ := hne
    exact .other hreset hcmd hcfg (not_completes_of_ne hengine hsource) hws hcsr (by rw [heng]) (by rw [heng])
  cases e with
  | host d w => exact hostTurn_effect h
  | source => exact sourceTurn_effect h
  | engine a => cases h; exact engineStep_effect s a
  | reset => cases h; exact .reset rfl rfl rfl
  | memWrite a b =>
    simp only [runEvent, memWriteTurn] at h
    split at h <;> cases h
    exact quiet ⟨rfl, rfl, rfl⟩ ⟨nofun, nofun, nofun⟩ rfl rfl
  | _ => cases h; exact quiet ⟨rfl, rfl, rfl⟩ ⟨nofun, nofun, nofun⟩ (by simp) (by simp)

end Agents

/-! ## The configuration -/

/-- While busy, a step but reset writes no CSR other than DONE, RESULT and PROTO_ERR. -/
theorem StepEffect.flags_only {s t : State} {e : Event} (h : StepEffect s e t) (hr : e ≠ .reset) (hb : s.eng.state ≠ .idle) :
    ∃ d r p, t.csr = { s.csr with done := d, result := r, protoErr := p } := by
  cases h with
  | reset he => exact absurd he hr
  | configIdle _ hs => exact absurd hs hb
  | command w _ heff => cases heff <;> exact ⟨_, _, _, ‹_›⟩
  | _ => exact ⟨_, _, _, ‹_›⟩

/-- PARAM is hardwired (R44). -/
theorem StepEffect.burstCap {s t : State} {e : Event} (h : StepEffect s e t) : t.csr.burstCap = s.csr.burstCap := by
  cases h with
  | configIdle _ _ _ _ _ hcap => exact hcap
  | command w _ heff => cases heff <;> simp [*]
  | _ => simp [*]

/-! ## The obligations -/

/-- Settles O38: of the kinds of step only `complete`, PULL and ACK while idle, and reset write DONE. -/
theorem onlyTheListedStepsChangeDone : Obligations.OnlyTheListedStepsChangeDone := by
  intro s t e rest hs ht
  cases step_effect hs ht with
  | reset he hcsr _ =>
    subst he
    simp [hcsr, Csr.reset, not_completes_of_ne, Event.command]
  | command w he heff =>
    obtain ⟨hr, -, hcomp, -⟩ := command_exclusive (s := s) he
    cases heff with
    | nop hop hcsr _ => simp [hcsr, he, hr, hcomp, hop]
    | dropped hs hop hcsr _ => simp [hcsr, he, hr, hcomp, hs]
    | reserved hs hop hcsr _ =>
      obtain ⟨hpull, hack⟩ := reserved_opcode_ne hop
      simp [hcsr, he, hr, hcomp, hpull, hack]
    | accepted hs hop hne heven hcsr _ => simp [hcsr, he, hr, hcomp, hs, hop, hne, heven, -BitVec.getLsbD_eq_getElem]
    | rejected hs hop hlen hcsr _ =>
      rcases hlen with hlen | hlen <;> simp [hcsr, he, hr, hcomp, hs, hop, hlen, -BitVec.getLsbD_eq_getElem]
    | released hs hop hcsr _ => simp [hcsr, he, hr, hcomp, hs, hop]
  | configBusy he hs hcsr _ =>
    obtain ⟨hr, hcmd, hcomp, -⟩ := writesConfig_exclusive (s := s) he
    simp [hcsr, hcmd, hr, hcomp]
  | configIdle he hs hdone _ _ _ _ =>
    obtain ⟨hr, hcmd, hcomp, -⟩ := writesConfig_exclusive (s := s) he
    simp [hdone, hcmd, hr, hcomp]
  | complete he hcsr _ => simp [hcsr, he]
  | writeSample he hcsr _ =>
    obtain ⟨hr, hcmd, -, hcomp⟩ := takesWriteSample_exclusive he
    simp [hcsr, hcmd, hr, hcomp]
  | other hr hcmd _ hcomp _ hcsr _ _ => simp [hcsr, hcmd, hr, hcomp]

/-- Settles O39: the kinds of step that write DONE write RESULT with it, and no other does. -/
theorem resultTellsHowThePullEnded : Obligations.ResultTellsHowThePullEnded := by
  intro s t e rest hs ht
  dsimp only
  cases step_effect hs ht with
  | reset he hcsr _ =>
    subst he
    simp [hcsr, Csr.reset, not_completes_of_ne, Event.command]
  | command w he heff =>
    obtain ⟨hr, -, hcomp, -⟩ := command_exclusive (s := s) he
    cases heff with
    | nop hop hcsr _ => simp [hcsr, he, hr, hcomp, hop]
    | dropped hs hop hcsr _ => simp [hcsr, he, hr, hcomp, hs]
    | reserved hs hop hcsr _ =>
      obtain ⟨hpull, hack⟩ := reserved_opcode_ne hop
      simp [hcsr, he, hr, hcomp, hpull, hack]
    | accepted hs hop hne heven hcsr _ => simp [hcsr, he, hr, hcomp, hs, hop, hne, heven, -BitVec.getLsbD_eq_getElem]
    | rejected hs hop hlen hcsr _ =>
      rcases hlen with hlen | hlen <;> simp [hcsr, he, hr, hcomp, hs, hop, hlen, -BitVec.getLsbD_eq_getElem]
    | released hs hop hcsr _ => simp [hcsr, he, hr, hcomp, hs, hop]
  | configBusy he hs hcsr _ =>
    obtain ⟨hr, hcmd, hcomp, -⟩ := writesConfig_exclusive (s := s) he
    simp [hcsr, hcmd, hr, hcomp]
  | configIdle he hs _ hresult _ _ _ =>
    obtain ⟨hr, hcmd, hcomp, -⟩ := writesConfig_exclusive (s := s) he
    simp [hresult, hcmd, hr, hcomp]
  | complete he hcsr _ =>
    obtain ⟨hr, hcmd, -, -⟩ := completes_exclusive he
    simp [hcsr, he, hr, hcmd]
  | writeSample he hcsr _ =>
    obtain ⟨hr, hcmd, -, hcomp⟩ := takesWriteSample_exclusive he
    simp [hcsr, hcmd, hr, hcomp]
  | other hr hcmd _ hcomp _ hcsr _ _ => simp [hcsr, hcmd, hr, hcomp]

/-- Settles O40: a command or a configuration write sets PROTO_ERR where it is dropped or reserved, and keeps or, for ACK while
idle, clears it elsewhere. -/
theorem protoErrIsStickyAndSetByTheListedEvents : Obligations.ProtoErrIsStickyAndSetByTheListedEvents := by
  intro s t e rest hs ht
  cases step_effect hs ht with
  | reset he hcsr _ =>
    subst he
    simp [hcsr, Csr.reset, Event.writesConfig, Event.command]
  | command w he heff =>
    obtain ⟨hr, hcfg, -, -⟩ := command_exclusive (s := s) he
    cases heff with
    | nop hop hcsr _ => simp [hcsr, he, hr, hcfg, hop]
    | dropped hs hop hcsr _ => exact iff_of_true (by rw [hcsr]) (Or.inl ⟨hs, w, he, hop⟩)
    | reserved hs hop hcsr _ => simp [hcsr, he, hop]
    | accepted hs hop _ _ hcsr _ => simp [hcsr, he, hr, hcfg, hs, hop]
    | rejected hs hop _ hcsr _ => simp [hcsr, he, hr, hcfg, hs, hop]
    | released hs hop hcsr _ => simp [hcsr, he, hr, hcfg, hs, hop]
  | configBusy he hs hcsr _ =>
    simp [hcsr, he, hs]
  | configIdle he hs _ _ herr _ _ =>
    obtain ⟨hr, hcmd, -, -⟩ := writesConfig_exclusive (s := s) he
    simp [herr, hcmd, hr, hs]
  | complete he hcsr _ =>
    obtain ⟨hr, hcmd, hcfg, -⟩ := completes_exclusive he
    simp [hcsr, hcmd, hr, hcfg]
  | writeSample he hcsr _ =>
    obtain ⟨hr, hcmd, hcfg, -⟩ := takesWriteSample_exclusive he
    simp [hcsr, hcmd, hr, hcfg]
  | other hr hcmd hcfg _ _ hcsr _ _ => simp [hcsr, hcmd, hr, hcfg]

/-- Settles O41: `complete` keeps the cursor, and no HOST write but a PULL while idle touches it. -/
theorem producedChangesOnlyByTheListedSteps : Obligations.ProducedChangesOnlyByTheListedSteps := by
  intro s t e rest hs ht
  cases step_effect hs ht with
  | reset he _ heng =>
    subst he
    simp [heng, Engine.reset, State.takesWriteSample]
  | command w he heff =>
    obtain ⟨hr, -, -, hws⟩ := command_exclusive (s := s) he
    cases heff with
    | nop hop _ heng => simp [heng, he, hr, hws, hop]
    | dropped hs hop _ heng => simp [heng, he, hr, hws, hs]
    | reserved hs hop _ heng => simp [heng, he, hr, hws, (reserved_opcode_ne hop).1]
    | accepted hs hop _ _ _ heng => simp [heng, he, hr, hws, hs, hop]
    | rejected hs hop _ _ heng => simp [heng, he, hr, hws, hs, hop]
    | released hs hop _ heng => simp [heng, he, hr, hws, hs, hop]
  | configBusy he hs _ heng =>
    obtain ⟨hr, hcmd, -, hws⟩ := writesConfig_exclusive (s := s) he
    simp [heng, hcmd, hr, hws]
  | configIdle he hs _ _ _ _ heng =>
    obtain ⟨hr, hcmd, -, hws⟩ := writesConfig_exclusive (s := s) he
    simp [heng, hcmd, hr, hws]
  | complete he _ heng =>
    obtain ⟨hr, hcmd, -, hws⟩ := completes_exclusive he
    simp [heng, hcmd, hr, hws]
  | writeSample he _ heng =>
    obtain ⟨hr, hcmd, -, -⟩ := takesWriteSample_exclusive he
    simp [heng, hcmd, hr, he]
  | other hr hcmd _ _ hws _ hprod _ => simp [hprod, hcmd, hr, hws]

/-- Settles O43: while busy a step but reset writes flags alone, and CONVERT reads none of them. -/
theorem configurationIsConstantDuringAPull : Obligations.ConfigurationIsConstantDuringAPull := by
  intro s t ht
  cases hs : s.schedule with
  | nil =>
    rw [step_nil hs] at ht
    cases ht
    exact ⟨rfl, fun _ _ => ⟨rfl, rfl, rfl, rfl, rfl, fun _ => rfl⟩⟩
  | cons e rest =>
    have heff := step_effect hs ht
    refine ⟨heff.burstCap, fun hb hr => ?_⟩
    obtain ⟨d, r, p, hcsr⟩ := heff.flags_only (by simpa using hr) hb
    rw [hcsr]
    exact ⟨rfl, rfl, rfl, rfl, rfl, fun _ => rfl⟩

/-- Settles O1: the listed registers by evaluation; an entry of the empty Burst buffer is the free value. -/
theorem resetStateHoldsTheListedValues : Obligations.ResetStateHoldsTheListedValues := by
  unfold Obligations.ResetStateHoldsTheListedValues
  simp only [← and_assoc]
  exact ⟨by decide, fun _ => rfl⟩

/-- Settles O29: in WRITE the invariant holds every entry below `k` (R232, item 8). -/
theorem writeSampleReadsOnlyWrittenBurstEntries : Obligations.WriteSampleReadsOnlyWrittenBurstEntries := by
  intro s hI hs hik
  obtain ⟨d, hd⟩ := Option.isSome_iff_exists.1 (hI.burstHeld (Or.inr hs) _ hik)
  rw [State.burstEntry, hd, Option.getD_some]

/-- Settles O47: watching `irq` records its level and moves the HOST's side alone. -/
theorem irqIsTheLevelOfDone : Obligations.IrqIsTheLevelOfDone := by
  intro s rest hs
  refine ⟨_, step_cons hs, ?_⟩
  simp [State.irq, State.reset, Csr.reset]

end Sys2Proof.Machine

/-! # OUTMEM and the HOST's accesses to it (20_memory.md)

The HOST's reads during a pull need what holds in the states in between, so the first part shows that every update of the state
keeps the invariant of R232, and `step_keeps_inv` that every step does. -/

namespace Sys2Proof.Machine

/-! ## The HOST's write -/

/-- The HOST's write: the contract fault in the region of a pull in flight, and the write anywhere else. -/
theorem memWriteTurn_cases (a : Addr) (b : Byte) (s : State) :
    (s.eng.state ≠ .idle ∧ s.inRegion a = true ∧ memWriteTurn a b s = .fault .hostWroteRegion) ∨
      (¬(s.eng.state ≠ .idle ∧ s.inRegion a = true) ∧ memWriteTurn a b s = .next (s.memWrite a b)) := by
  unfold memWriteTurn
  split
  · next h =>
    obtain ⟨hb, hr⟩ := Bool.and_eq_true_iff.1 h
    exact Or.inl ⟨(busy_iff s).1 hb, hr, rfl⟩
  · next h => exact Or.inr ⟨by rwa [← busy_iff, ← Bool.and_eq_true_iff], rfl⟩

/-! ## Every update keeps the invariant -/

section Invariant

variable {s : State}

/-- A pull in flight has no result (R232, items 2 and 3). -/
theorem State.Inv.result_none (hI : s.Inv) (hb : s.eng.state ≠ .idle) : s.csr.result = .none := by
  by_contra hr
  exact hb (hI.doneIdle (hI.doneIffResult.2 hr))

theorem inv_flagProtocolError (hI : s.Inv) : s.flagProtocolError.Inv := { hI with }

theorem inv_emit (o : Observation) (hI : s.Inv) : (s.emit o).Inv := { hI with }

theorem inv_observeDone (hI : s.Inv) : s.observeDone.Inv := by
  unfold State.observeDone
  split
  · exact { hI with
      viewsWf := wf_acquire hI.outmemWf hI.viewsWf
      viewsReplay := replays_acquire hI.viewsReplay }
  · exact hI

theorem inv_maintain (hI : s.Inv) : s.maintain.Inv :=
  { hI with
    viewsWf := ⟨hI.viewsWf.2, hI.viewsWf.2⟩
    viewsReplay := replays_maintain hI.viewsReplay }

theorem inv_memWrite (a : Addr) (b : Byte) (hI : s.Inv) : (s.memWrite a b).Inv :=
  { hI with
    outmemWf := Memory.wf_write a b hI.outmemWf
    viewsWf := ⟨Memory.wf_write a b hI.viewsWf.1, Memory.wf_write a b hI.viewsWf.2⟩
    viewsReplay := replays_ownWrite a b hI.viewsReplay }

theorem inv_onReset (hI : s.Inv) : s.onReset.Inv :=
  { hI with
    doneIffResult := by simp [Csr.reset]
    doneIdle := fun _ => rfl
    producedEven := rfl
    busyLen := fun h => absurd rfl h
    waitRequest := nofun
    writeFits := nofun
    burstHeld := nofun
    okComplete := nofun
    burstBounded := by simp [cellsRising] }

/-- ACK while idle. -/
theorem inv_release (hI : s.Inv) : s.release.Inv :=
  { hI with
    doneIffResult := by simp
    doneIdle := nofun
    okComplete := nofun }

/-- The end of a pull; a held OK needs the whole region written. -/
theorem inv_complete {r : Result} (hI : s.Inv) (hr : r ≠ .none) (hok : r = .ok → s.eng.produced = s.eng.len) :
    (s.complete r).Inv :=
  { hI with
    doneIffResult := by simp [hr]
    doneIdle := fun _ => rfl
    busyLen := fun h => absurd rfl h
    waitRequest := nofun
    writeFits := nofun
    burstHeld := nofun
    okComplete := hok }

/-- PULL while idle: a legal length is even and at least 2. -/
theorem inv_startPull (len : Count) (hI : s.Inv) (hs : s.eng.state = .idle) : (s.startPull len).Inv := by
  rcases startPull_cases len s with ⟨⟨hne, heven⟩, ht⟩ | ⟨-, ht⟩ <;> rw [ht]
  · have hrange : 2 ≤ len.toNat ∧ len.toNat ≤ 65534 := by
      have hlt := len.isLt
      omega
    exact { hI with
      doneIffResult := by simp
      doneIdle := nofun
      producedEven := rfl
      busyLen := fun _ => ⟨heven, hrange.1, hrange.2, Nat.zero_le _⟩
      waitRequest := nofun
      writeFits := nofun
      burstHeld := nofun
      okComplete := nofun }
  · exact { hI with
      doneIffResult := by simp
      doneIdle := fun _ => hs
      producedEven := rfl
      busyLen := fun h => absurd hs h
      waitRequest := fun h => by simp [hs] at h
      writeFits := fun h => by simp [hs] at h
      burstHeld := fun h => by simp [hs] at h
      okComplete := nofun }

/-- A dropped command or configuration write sets PROTO_ERR alone. -/
theorem inv_whenIdle {effect : State → State} (hI : s.Inv) (h : s.eng.state = .idle → (effect s).Inv) :
    (s.whenIdle effect).Inv := by
  rcases whenIdle_cases s effect with ⟨hs, ht⟩ | ⟨-, ht⟩ <;> rw [ht]
  · exact h hs
  · exact inv_flagProtocolError hI

/-- ISSUE: before the end of the region at least one Sample remains to be asked for. -/
theorem inv_issue (hI : s.Inv) (hs : s.eng.state = .issue) : s.issue.Inv := by
  rcases issue_cases s with ⟨hp, ht⟩ | ⟨hp, ht⟩ <;> rw [ht]
  · exact inv_complete hI nofun fun _ => hp
  · have hb : s.eng.state ≠ .idle := by simp [hs]
    have hreq : 1 ≤ s.nextRequest.toNat := by
      have hp : s.eng.produced.toNat ≠ s.eng.len.toNat := fun h => hp (BitVec.eq_of_toNat_eq h)
      have hlen := hI.busyLen hb
      have heven := hI.producedEven
      have hcap := hI.capLegal
      rw [nextRequest_toNat]
      omega
    exact { hI with
      doneIdle := fun hd => absurd (hI.doneIdle hd) hb
      busyLen := fun _ => hI.busyLen hb
      waitRequest := fun _ => ⟨nextRequest_toNat s, hreq, Nat.zero_le _⟩
      writeFits := nofun
      burstHeld := fun _ j hj => absurd hj (Nat.not_lt_zero j) }

theorem inv_writeEnd (hI : s.Inv) (hs : s.eng.state = .write) : s.writeEnd.Inv :=
  have hb : s.eng.state ≠ .idle := by simp [hs]
  { hI with
    doneIdle := fun hd => absurd (hI.doneIdle hd) hb
    busyLen := fun _ => hI.busyLen hb
    waitRequest := nofun
    writeFits := nofun
    burstHeld := nofun }

/-- In WRITE with entries left, the next Sample fits into the region, and the counters do not wrap. -/
theorem write_room (hI : s.Inv) (hs : s.eng.state = .write) (hik : s.eng.i.toNat < s.eng.k.toNat) :
    (s.eng.produced + 2).toNat = s.eng.produced.toNat + 2 ∧ (s.eng.i + 1).toNat = s.eng.i.toNat + 1 ∧
      s.eng.produced.toNat + 2 ≤ s.eng.len.toNat := by
  obtain ⟨-, -, hfit⟩ := hI.writeFits hs
  have hlen := s.eng.len.isLt
  have hk := s.eng.k.isLt
  exact ⟨BitVec.toNat_add_of_lt (by simp; omega), BitVec.toNat_add_of_lt (by simp; omega), by omega⟩

theorem inv_writeSample (hI : s.Inv) (hs : s.eng.state = .write) (hik : s.eng.i.toNat < s.eng.k.toNat) :
    s.writeSample.Inv := by
  have hb : s.eng.state ≠ .idle := by simp [hs]
  obtain ⟨hp, hi, hroom⟩ := write_room hI hs hik
  obtain ⟨-, hkr, hfit⟩ := hI.writeFits hs
  obtain ⟨heven, htwo, hmax, -⟩ := hI.busyLen hb
  have hpe := hI.producedEven
  exact { hI with
    producedEven := by rw [writeSample_eng, hp]; omega
    busyLen := fun _ => ⟨heven, htwo, hmax, by rw [writeSample_eng, hp]; exact hroom⟩
    waitRequest := fun h => by simp [hs] at h
    writeFits := fun _ => by
      simp only [writeSample_eng, hp, hi]
      omega
    okComplete := fun h => by simp [hI.result_none hb] at h
    outmemWf := Memory.wf_writeSample _ _ hI.outmemWf
    viewsReplay := replays_blockWrites _ _ hI.viewsReplay }

theorem inv_engineStep (a : Bool) (hI : s.Inv) : (s.engineStep a).Inv := by
  rcases engineStep_cases s a with ⟨hs, ht⟩ | ⟨hs, -, ht⟩ | ⟨hs, hik, -, ht⟩ | ⟨-, -, -, ht⟩ <;> rw [ht]
  · exact inv_issue hI hs
  · exact inv_writeEnd hI hs
  · exact inv_writeSample hI hs hik
  · exact hI

/-- A Frame in WAIT below the request goes into an entry inside the capacity. -/
theorem inv_takeFrame (d : Frame) (hI : s.Inv) (hs : s.eng.state = .wait) (hk : s.eng.k.toNat < s.eng.req.toNat) :
    (s.takeFrame d).Inv := by
  obtain ⟨hreq, hone, -⟩ := hI.waitRequest hs
  have hlt := s.eng.req.isLt
  have hk1 : (s.eng.k + 1).toNat = s.eng.k.toNat + 1 := BitVec.toNat_add_of_lt (by simp; omega)
  exact { hI with
    waitRequest := fun _ => ⟨hreq, hone, by rw [takeFrame_eng, hk1]; exact hk⟩
    writeFits := fun h => by simp [hs] at h
    burstHeld := fun _ j hj => by
      rw [takeFrame_eng, hk1] at hj
      rw [takeFrame_burst]
      by_cases h : j = s.eng.k.toNat
      · simp [h]
      · rw [cellLookup_insert_ne _ _ h]
        exact hI.burstHeld (Or.inl hs) j (by omega)
    burstBounded := burst_bounded_insert d (by rw [takeFrame_csr]; omega) hI.burstBounded }

/-- The burst of a read that ended Ok fits into the rest of the region, as the request did. -/
theorem inv_endRead (hI : s.Inv) (hs : s.eng.state = .wait) : s.endRead.Inv := by
  have hb : s.eng.state ≠ .idle := by simp [hs]
  obtain ⟨hreq, -, hk⟩ := hI.waitRequest hs
  obtain ⟨-, -, -, hp⟩ := hI.busyLen hb
  exact { hI with
    doneIdle := fun hd => absurd (hI.doneIdle hd) hb
    busyLen := fun _ => hI.busyLen hb
    waitRequest := nofun
    writeFits := fun _ => ⟨Nat.zero_le _, hk, by simp only [endRead_eng]; omega⟩
    burstHeld := fun _ => hI.burstHeld (Or.inl hs) }

/-! ## Every step keeps the invariant -/

variable {t : State}

theorem inv_runCommandWord {w : Word} (hI : s.Inv) (h : runCommandWord w s = .next t) : t.Inv := by
  rcases runCommandWord_cases w s with ⟨-, hr⟩ | ⟨-, hr⟩ | ⟨-, hr⟩ | ⟨-, hr⟩ <;> rw [hr] at h <;> cases h
  · exact hI
  · exact inv_whenIdle hI (inv_startPull _ hI)
  · exact inv_whenIdle hI fun _ => inv_release hI
  · exact inv_whenIdle hI fun _ => inv_flagProtocolError hI

theorem inv_hostTurn {d : Descriptor} {w : Word} (hI : s.Inv) (h : hostTurn d w s = .next t) : t.Inv := by
  rcases host_cases d w s with ⟨v, hr, -⟩ | ⟨hr, -⟩ | ⟨hr, -⟩ | ⟨hr | hr | hr, -⟩ | ⟨hr, -⟩ <;> rw [hr] at h
  case inr.inr.inr.inr => exact inv_runCommandWord hI h
  all_goals cases h
  · exact inv_emit _ hI
  · exact inv_emit _ (inv_observeDone hI)
  · exact hI
  all_goals exact inv_whenIdle hI fun _ => { hI with }

theorem inv_sourceTurn (hI : s.Inv) (h : sourceTurn s = .next t) : t.Inv := by
  have hpop (more : List Beat) : ({ s with channel := more } : State).Inv := { hI with }
  rcases sourceTurn_cases s with
    ⟨-, hr⟩ | ⟨b, more, -, ⟨-, hr⟩ | ⟨-, hs, hk, hr⟩ | ⟨-, -, hs, hr⟩ | ⟨-, -, -, hr⟩⟩ <;> rw [hr] at h <;> cases h
  · exact hI
  · exact hI
  · exact inv_takeFrame _ (hpop more) hs hk
  · exact inv_endRead (hpop more) hs
  · exact inv_complete (hpop more) nofun nofun

theorem inv_runEvent {e : Event} (hI : s.Inv) (h : runEvent e s = .next t) : t.Inv := by
  cases e with
  | host d w => exact inv_hostTurn hI h
  | source => exact inv_sourceTurn hI h
  | engine a => cases h; exact inv_engineStep a hI
  | reset => cases h; exact inv_onReset hI
  | memWrite a b =>
    simp only [runEvent] at h
    rcases memWriteTurn_cases a b s with ⟨-, -, hr⟩ | ⟨-, hr⟩ <;> rw [hr] at h <;> cases h
    exact inv_memWrite a b hI
  | watchIrq => cases h; exact inv_emit _ (inv_observeDone hI)
  | maintain => cases h; exact inv_maintain hI
  | offer | sourceReset | memRead => cases h; exact { hI with }

theorem step_keeps_inv (hI : s.Inv) (h : step s = .next t) : t.Inv := by
  cases hs : s.schedule with
  | nil => rw [step_nil hs] at h; cases h; exact hI
  | cons e rest =>
    rw [step_cons hs] at h
    exact inv_runEvent (s := { s with schedule := rest }) { hI with } h

end Invariant

/-! ## The output region -/

/-- The region as the bytes of R82. -/
theorem inRegion_iff (s : State) (a : Addr) :
    s.inRegion a = true ↔ ∃ j, j < s.eng.len.toNat ∧ a = s.csr.bufBase + BitVec.ofNat 32 j := by
  have hlen := s.eng.len.isLt
  rw [State.inRegion, decide_eq_true_eq]
  constructor
  · intro h
    exact ⟨_, h, by rw [BitVec.ofNat_toNat, BitVec.setWidth_eq]; bv_omega⟩
  · rintro ⟨j, hj, rfl⟩
    rw [add_sub_cancel_left, BitVec.toNat_ofNat]
    omega

/-- A byte written at the cursor lies at offset `produced` or the next one. -/
theorem cursor_offset {s : State} {a : Addr} (h : a = s.cursorAddr ∨ a = s.cursorAddr + 1) :
    (a - s.csr.bufBase).toNat = s.eng.produced.toNat ∨ (a - s.csr.bufBase).toNat = s.eng.produced.toNat + 1 := by
  have hp := s.eng.produced.isLt
  have hw : (s.eng.produced.setWidth 32).toNat = s.eng.produced.toNat := by simp; omega
  rcases h with rfl | rfl <;> rw [State.cursorAddr]
  · left; rw [add_sub_cancel_left, hw]
  · right; bv_omega

/-! ## Which turns stop -/

/-- No turn but the HOST's write stops. -/
theorem runEvent_next {e : Event} (s : State) (he : e.isMemWrite = false) : ∃ t, runEvent e s = .next t := by
  cases e with
  | host d w =>
    simp only [runEvent]
    rcases host_cases d w s with ⟨v, hr, -⟩ | ⟨hr, -⟩ | ⟨hr, -⟩ | ⟨hr | hr | hr, -⟩ | ⟨hr, -⟩ <;> rw [hr]
    case inr.inr.inr.inr =>
      rcases runCommandWord_cases w s with ⟨-, hc⟩ | ⟨-, hc⟩ | ⟨-, hc⟩ | ⟨-, hc⟩ <;> exact ⟨_, hc⟩
    all_goals exact ⟨_, rfl⟩
  | source =>
    rcases sourceTurn_cases s with
      ⟨-, hr⟩ | ⟨b, more, -, ⟨-, hr⟩ | ⟨-, -, -, hr⟩ | ⟨-, -, -, hr⟩ | ⟨-, -, -, hr⟩⟩ <;> exact ⟨_, hr⟩
  | memWrite a b => cases he
  | _ => exact ⟨_, rfl⟩

/-! ## The HOST's reads -/

/-- With no block write left to see, a HOST read returns the byte in view. -/
theorem hostByte_of_nothing_pending {s : State} (hm : s.host.unmaintained = []) (ha : s.host.unacquired = []) (n : Nat)
    (a : Addr) : s.hostByte n a = Memory.read s.host.view a :=
  hostByteBy_of_admitted (by simp [HostSide.admitted, hm, ha]) _

/-- Through a run of a pull in flight the invariant and the region hold, and each value the HOST may read since its last acquire
stays. -/
theorem run_sinceAcquire {n : Nat} {s t : State} {a : Addr} (hI : s.Inv) (hr : s.eng.state ≠ .idle → s.inRegion a = true)
    (hb : ∀ m u, m < n → Host.Core.run Sys2Proof.core m s = .next u → u.eng.state ≠ .idle)
    (h : Host.Core.run Sys2Proof.core n s = .next t) :
    t.Inv ∧ (t.eng.state ≠ .idle → t.inRegion a = true) ∧ ∀ v ∈ s.host.sinceAcquire a, v ∈ t.host.sinceAcquire a := by
  induction n generalizing s with
  | zero => cases h; exact ⟨hI, hr, fun _ hv => hv⟩
  | succ n ih =>
    obtain ⟨u, hu, h⟩ := run_succ_inv h
    have hbusy := hb 0 s (Nat.succ_pos n) rfl
    obtain ⟨hkeep, hru⟩ := step_sinceAcquire hI hbusy (hr hbusy) hu
    obtain ⟨hIt, hrt, hrest⟩ := ih (step_keeps_inv hI hu) hru
      (fun m v hm hv => hb (m + 1) v (Nat.succ_lt_succ hm) ((run_succ hu).trans hv)) h
    exact ⟨hIt, hrt, fun v hv => hrest v (hkeep v hv)⟩

/-! ## The obligations -/

/-- Settles O30: the two byte writes go to an address and its successor, which differ even where the sum wraps. -/
theorem sampleIsWrittenLittleEndianAtAnyAddress : Obligations.SampleIsWrittenLittleEndianAtAnyAddress := by
  intro m a x
  refine ⟨⟨a + 1, by simp [BitVec.toNat_add], ?_, ?_, fun y => Memory.read_writeSample_ne m x⟩, Memory.wf_writeSample a x⟩
  · rw [Memory.writeSample_eq, Memory.read_write_ne _ _ (addr_succ_ne a).symm, Memory.read_write_self]
  · rw [Memory.writeSample_eq, Memory.read_write_self]

/-- Settles O37: every turn but the HOST's write answers a next state, and that one stops exactly in the busy region. -/
theorem onlyAHostWriteIntoTheBusyRegionStops : Obligations.OnlyAHostWriteIntoTheBusyRegionStops := by
  intro s
  constructor
  · intro hstop
    cases hs : s.schedule with
    | nil => exact absurd ⟨s, step_nil hs⟩ hstop
    | cons e rest =>
      rw [step_cons hs] at hstop ⊢
      cases he : e.isMemWrite with
      | false => exact absurd (runEvent_next _ he) hstop
      | true =>
        cases e with
        | memWrite a b =>
          rcases memWriteTurn_cases a b { s with schedule := rest } with ⟨hb, hr, hf⟩ | ⟨-, hn⟩
          · exact ⟨a, b, rest, rfl, hb, (inRegion_iff s a).1 hr, hf⟩
          · exact absurd ⟨_, hn⟩ hstop
        | _ => cases he
  · rintro ⟨a, b, rest, -, -, -, hf⟩ ⟨t, ht⟩
    rw [hf] at ht
    cases ht

/-- Settles O45: the only such step that changes OUTMEM is WRITE_SAMPLE, whose two bytes are at the cursor. -/
theorem outputWritesStayInTheRegionInOrder : Obligations.OutputWritesStayInTheRegionInOrder := by
  intro s t hI hstep hw a ha
  rcases step_outmem_cases hstep hw with h | ⟨hs, hik, rest, rfl⟩
  · rw [h] at ha
    exact absurd rfl ha
  · have hat : a = s.cursorAddr ∨ a = s.cursorAddr + 1 := by
      by_contra hno
      obtain ⟨h0, h1⟩ := not_or.1 hno
      exact ha (Memory.read_writeSample_ne _ _ h0 h1)
    obtain ⟨hp, -, hroom⟩ := write_room hI hs hik
    have hoff := cursor_offset hat
    simp only [writeSample_eng, hp, true_and]
    exact ⟨hs, by omega, by omega, hroom⟩

/-- Settles O46: WRITE_SAMPLE needs the engine in WRITE, and with a result held it is idle. -/
theorem noOutputWriteWhileAResultIsHeld : Obligations.NoOutputWriteWhileAResultIsHeld := by
  intro s t hI hdone hstep hw
  rcases step_outmem_cases hstep hw with h | ⟨hs, -⟩
  · exact h
  · rw [hI.doneIdle hdone] at hs
    cases hs

/-- Settles O48: with DONE = 1 the read acquires OUTMEM, which is in view at once or after the HOST's maintenance. -/
theorem hostReadsAfterDoneReturnTheWrittenBytes : Obligations.HostReadsAfterDoneReturnTheWrittenBytes := by
  intro lane s hdone
  refine ⟨_, rfl, observeDone_outmem s, fun hsees n a => ?_, fun n a => ?_⟩
  · rcases hostAcquire_cases s.host s.outmem with ⟨-, h⟩ | ⟨h, -⟩
    · rw [hostByte_of_nothing_pending] <;> simp [hdone, h]
    · rw [hsees] at h
      cases h
  · rw [hostByte_of_nothing_pending] <;> simp [hdone]

/-- Settles O49: a value of OUTMEM is among those since the last acquire when it stands there, stays among them while the pull is
in flight, and all of them are admitted. -/
theorem hostReadReturnsOldOrNewByte : Obligations.HostReadReturnsOldOrNewByte := by
  refine ⟨fun s a rest hs => ?_, fun s a v => ⟨exists_hostByteBy, ?_⟩, fun n s t a hI hr hb ht m u hm hu => ?_⟩
  · exact ⟨s.hostByte s.freeCount a, s.hostByte (s.freeCount + 1) (a + 1), _, step_cons hs, rfl,
      hostByteBy_mem s _ a, hostByteBy_mem s _ (a + 1), rfl, rfl, rfl, rfl, rfl, rfl⟩
  · rintro ⟨c, rfl⟩
    exact hostByteBy_mem s c a
  · obtain ⟨k, rfl⟩ := Nat.exists_eq_add_of_le hm
    have hrest := run_add (n := k) hu
    obtain ⟨hIu, hru, -⟩ := run_sinceAcquire hI (fun _ => hr) (fun j v hj => hb j v (by omega)) hu
    obtain ⟨hIt, -, hkeep⟩ := run_sinceAcquire hIu hru
      (fun j v hj hv => hb (m + j) v (by omega) ((run_add hu).trans hv)) (hrest.symm.trans ht)
    exact admitted_of_sinceAcquire hIt.viewsReplay (hkeep _ (read_mem_sinceAcquire hIu.viewsReplay a))

end Sys2Proof.Machine

/-! # The decoder and the encoder are inverse, and the opcode table has no overlap (30_encoding.md)

Each decoder is read at an assembled word, and each decoded instruction is assembled again: from these two layers follow
`decode_encode`, `encode_decode` and, with the disjointness of the table's rows, the row of a transaction. -/

namespace Sys2Proof

/-! ## The decoders at an assembled word -/

@[simp] theorem decodeCmd_nop (len : BitVec 16) (rsv : BitVec 12) :
    decodeCmd (commandWord len rsv 0) = .nop len rsv := by simp [decodeCmd]

@[simp] theorem decodeCmd_pull (len : BitVec 16) (rsv : BitVec 12) :
    decodeCmd (commandWord len rsv 1) = .pull len rsv := by simp [decodeCmd]

@[simp] theorem decodeCmd_ack (len : BitVec 16) (rsv : BitVec 12) :
    decodeCmd (commandWord len rsv 2) = .ack len rsv := by simp [decodeCmd]

@[simp] theorem decodeCmd_reserved3 (len : BitVec 16) (rsv : BitVec 12) :
    decodeCmd (commandWord len rsv 3) = .reservedCmd3 len rsv := by simp [decodeCmd]

theorem decodeCmd_reserved4to7 (len : BitVec 16) (rsv : BitVec 12) {op : BitVec 4}
    (h : 4 ≤ op.toNat ∧ op.toNat ≤ 7) : decodeCmd (commandWord len rsv op) = .reservedCmd4to7 len rsv op := by
  have hop : op.toNat = 4 ∨ op.toNat = 5 ∨ op.toNat = 6 ∨ op.toNat = 7 := by omega
  rcases hop with hop | hop | hop | hop <;> simp [decodeCmd, hop]

theorem decodeCmd_reserved8to15 (len : BitVec 16) (rsv : BitVec 12) {op : BitVec 4} (h : 8 ≤ op.toNat) :
    decodeCmd (commandWord len rsv op) = .reservedCmd8to15 len rsv op := by
  simp only [decodeCmd, opOf_commandWord, lenOf_commandWord, rsvOf_commandWord]
  split
  case h_9 => rfl
  all_goals omega

theorem decodeRead_high {slot : BitVec 4} (lane : BitVec 2) (h : 8 ≤ slot.toNat) :
    decodeRead slot lane = .rdRsv20to3F slot lane := by
  unfold decodeRead
  split
  case h_9 => rfl
  all_goals omega

theorem decodeWrite_high {slot : BitVec 4} (lane : BitVec 2) (w : Word) (h : 8 ≤ slot.toNat) :
    decodeWrite slot lane w = .wrRsv60to7F slot lane w := by
  unfold decodeWrite
  split
  case h_9 => rfl
  all_goals omega

@[simp] theorem decodeBus_read (slot : BitVec 4) (lane : BitVec 2) (w : Word) :
    decodeBus (descriptor false slot lane) w = decodeRead slot lane := by simp [decodeBus]

@[simp] theorem decodeBus_write (slot : BitVec 4) (lane : BitVec 2) (w : Word) :
    decodeBus (descriptor true slot lane) w = decodeWrite slot lane w := by simp [decodeBus]

@[simp] theorem decodeSrc_frame (st : BitVec 1) (d : Frame) : decodeSrc (beat 0 st d) = .frame st d := by
  rw [decodeSrc, beat_kind_bit, if_pos (by decide), beat_st, beat_data]

@[simp] theorem decodeSrc_endOk (data : BitVec 32) : decodeSrc (beat 1 0 data) = .endOk data := by
  rw [decodeSrc, beat_kind_bit, if_neg (by decide), beat_st_bit, if_pos (by decide), beat_data]

@[simp] theorem decodeSrc_endFault (data : BitVec 32) : decodeSrc (beat 1 1 data) = .endFault data := by
  rw [decodeSrc, beat_kind_bit, if_neg (by decide), beat_st_bit, if_neg (by decide), beat_data]

/-! ## Decoding an encoded instruction -/

/-- An operand carried with its whole field is kept because well-formedness puts it into its row's range; every other row
fixes the opcode, the slot or the control bits. -/
theorem decode_encode {i : Instr} (h : i.wf = true) : decode (encode i) = i := by
  cases i with
  | nop len rsv => exact decodeCmd_nop len rsv
  | pull len rsv => exact decodeCmd_pull len rsv
  | ack len rsv => exact decodeCmd_ack len rsv
  | reservedCmd3 len rsv => exact decodeCmd_reserved3 len rsv
  | reservedCmd4to7 len rsv op => exact decodeCmd_reserved4to7 len rsv (of_decide_eq_true h)
  | reservedCmd8to15 len rsv op => exact decodeCmd_reserved8to15 len rsv (of_decide_eq_true h)
  | rdRsv20to3F slot lane => exact (decodeBus_read slot lane 0).trans (decodeRead_high lane (of_decide_eq_true h))
  | wrRsv60to7F slot lane w => exact (decodeBus_write slot lane w).trans (decodeWrite_high lane w (of_decide_eq_true h))
  | frame st d => exact decodeSrc_frame st d
  | endOk data => exact decodeSrc_endOk data
  | endFault data => exact decodeSrc_endFault data
  | wrCtrl lane w | wrStatus lane w | wrBufBase lane w | wrGain lane w | wrClamp lane w | wrParam lane w
  | wrReqLen lane w | wrRsv5C lane w => exact decodeBus_write _ lane w
  | _ lane => exact decodeBus_read _ lane 0

/-- Settles O52: every row's decoder reads back what its encoder assembled. -/
theorem decodeInvertsEncode : Obligations.DecodeInvertsEncode := fun _ => decode_encode

/-! ## Encoding a decoded instruction -/

theorem decodeCmd_wf (w : Word) : (decodeCmd w).wf = true := by
  unfold decodeCmd
  split
  case h_9 => simp only [Instr.wf, decide_eq_true_eq, imp_false] at *; omega
  case h_5 h | h_6 h | h_7 h | h_8 h => simp [Instr.wf, h]
  all_goals rfl

theorem decodeSrc_wf (b : Beat) : (decodeSrc b).wf = true := by
  unfold decodeSrc
  split
  · rfl
  · split <;> rfl

theorem decode_wf (r : Raw) : (decode r).wf = true := by
  cases r with
  | bus t w => exact decodeBus_wf t w
  | cmd w => exact decodeCmd_wf w
  | src b => exact decodeSrc_wf b

/-- An opcode or slot whose value the decoder has found to be `n`. -/
theorem ofNat_four_bit {x : BitVec 4} {n : Nat} (h : x.toNat = n) : BitVec.ofNat 4 n = x :=
  ((Machine.four_bit_eq_iff x n (h ▸ x.isLt)).2 h).symm

theorem encode_decodeCmd (w : Word) : encode (decodeCmd w) = .cmd w := by
  have fields {n : Nat} (h : (opOf w).toNat = n) : commandWord (lenOf w) (rsvOf w) (BitVec.ofNat 4 n) = w := by
    rw [ofNat_four_bit h, commandWord_fields]
  unfold decodeCmd
  split
  case h_1 h | h_2 h | h_3 h | h_4 h => exact congrArg Raw.cmd (fields h)
  all_goals exact congrArg Raw.cmd (commandWord_fields w)

theorem encode_decodeRead (slot : BitVec 4) (lane : BitVec 2) :
    encode (decodeRead slot lane) = .bus (descriptor false slot lane) 0 := by
  unfold decodeRead
  split
  case h_9 => rfl
  case h_1 h | h_2 h | h_3 h | h_4 h | h_5 h | h_6 h | h_7 h | h_8 h => rw [← ofNat_four_bit h]; rfl

theorem encode_decodeWrite (slot : BitVec 4) (lane : BitVec 2) (w : Word) :
    encode (decodeWrite slot lane w) = .bus (descriptor true slot lane) w := by
  unfold decodeWrite
  split
  case h_9 => rfl
  case h_1 h | h_2 h | h_3 h | h_4 h | h_5 h | h_6 h | h_7 h | h_8 h => rw [← ofNat_four_bit h]; rfl

theorem encode_decodeBus (t : Descriptor) (w : Word) :
    encode (decodeBus t w) = .bus t (if isWrite t then w else 0) := by
  have fields := descriptor_fields t
  unfold decodeBus
  cases hw : isWrite t <;> rw [hw] at fields
  · exact (encode_decodeRead ..).trans (by rw [fields]; rfl)
  · exact (encode_decodeWrite ..).trans (by rw [fields]; rfl)

/-- ST stays an operand of a Frame beat; the two End rows fix it. -/
theorem encode_decodeSrc (b : Beat) : encode (decodeSrc b) = .src b := by
  obtain ⟨kind, st, data, rfl⟩ : ∃ kind st data, b = beat kind st data := ⟨_, _, _, (beat_fields b).symm⟩
  obtain rfl | rfl : kind = 0 ∨ kind = 1 := by revert kind; decide
  · rw [decodeSrc_frame]; rfl
  · obtain rfl | rfl : st = 0 ∨ st = 1 := by revert st; decide
    · rw [decodeSrc_endOk]; rfl
    · rw [decodeSrc_endFault]; rfl

/-- Settles O53: the encoder assembles a transaction from the fields its decoder took it apart into. -/
theorem encodeInvertsDecode : Obligations.EncodeInvertsDecode := by
  intro r
  refine ⟨decode_wf r, ?_⟩
  cases r with
  | bus t w => exact encode_decodeBus t w
  | cmd w => exact encode_decodeCmd w
  | src b => exact encode_decodeSrc b

/-! ## The rows of the opcode table -/

/-- The row of every well-formed instruction is in the table and covers its word. -/
theorem rowListed : ∀ i : Instr, Laws.RowListed.Statement i
  | .nop len rsv => Laws.RowListed.nop len rsv
  | .pull len rsv => Laws.RowListed.pull len rsv
  | .ack len rsv => Laws.RowListed.ack len rsv
  | .reservedCmd3 len rsv => Laws.RowListed.reservedCmd3 len rsv
  | .reservedCmd4to7 len rsv op => Laws.RowListed.reservedCmd4to7 len rsv op
  | .reservedCmd8to15 len rsv op => Laws.RowListed.reservedCmd8to15 len rsv op
  | .rdCtrl lane => Laws.RowListed.rdCtrl lane
  | .rdStatus lane => Laws.RowListed.rdStatus lane
  | .rdBufBase lane => Laws.RowListed.rdBufBase lane
  | .rdGain lane => Laws.RowListed.rdGain lane
  | .rdClamp lane => Laws.RowListed.rdClamp lane
  | .rdParam lane => Laws.RowListed.rdParam lane
  | .rdReqLen lane => Laws.RowListed.rdReqLen lane
  | .rdRsv1C lane => Laws.RowListed.rdRsv1C lane
  | .rdRsv20to3F slot lane => Laws.RowListed.rdRsv20to3F slot lane
  | .wrCtrl lane w => Laws.RowListed.wrCtrl lane w
  | .wrStatus lane w => Laws.RowListed.wrStatus lane w
  | .wrBufBase lane w => Laws.RowListed.wrBufBase lane w
  | .wrGain lane w => Laws.RowListed.wrGain lane w
  | .wrClamp lane w => Laws.RowListed.wrClamp lane w
  | .wrParam lane w => Laws.RowListed.wrParam lane w
  | .wrReqLen lane w => Laws.RowListed.wrReqLen lane w
  | .wrRsv5C lane w => Laws.RowListed.wrRsv5C lane w
  | .wrRsv60to7F slot lane w => Laws.RowListed.wrRsv60to7F slot lane w
  | .frame st d => Laws.RowListed.frame st d
  | .endOk data => Laws.RowListed.endOk data
  | .endFault data => Laws.RowListed.endFault data

theorem covers_iff (row : Row) (r : Raw) :
    row.covers r = true ↔ row.port = r.port ∧ r.number &&& row.mask = row.pattern := by
  simp [Row.covers]

/-- A row reads the interface and the number of a transaction, never the data of a BUS access. -/
theorem covers_encode_decode (row : Row) (r : Raw) : row.covers (encode (decode r)) = row.covers r := by
  rw [(encodeInvertsDecode r).2]
  cases r <;> rfl

/-- Two rows of one interface that agree where both masks look are the same row. -/
theorem opcodeTable_disjoint : ∀ a ∈ opcodeTable, ∀ b ∈ opcodeTable,
    a.port = b.port → a.pattern &&& b.mask = b.pattern &&& a.mask → a = b := by decide

theorem row_unique {a b : Row} {r : Raw} (ha : a ∈ opcodeTable) (hb : b ∈ opcodeTable)
    (hca : a.covers r = true) (hcb : b.covers r = true) : a = b := by
  obtain ⟨hpa, hma⟩ := (covers_iff a r).1 hca
  obtain ⟨hpb, hmb⟩ := (covers_iff b r).1 hcb
  refine opcodeTable_disjoint a ha b hb (hpa.trans hpb.symm) ?_
  rw [← hma, ← hmb, Nat.and_right_comm]

/-- Settles O54: the decoded instruction's row covers its encoding, which has the transaction's number, and no two rows of the
table overlap. -/
theorem everyTransactionLiesInExactlyOneRow : Obligations.EveryTransactionLiesInExactlyOneRow := by
  intro r row hrow
  obtain ⟨hlisted, hcov⟩ := rowListed (decode r) (decode_wf r)
  rw [covers_encode_decode] at hcov
  refine ⟨fun h => row_unique hrow hlisted h hcov, ?_⟩
  rintro rfl
  exact hcov

/-- Settles O55, by evaluating the decoder on the twelve words. -/
theorem writtenOutWordsDecode : Obligations.WrittenOutWordsDecode := by
  unfold Obligations.WrittenOutWordsDecode
  decide

end Sys2Proof

namespace Sys2Proof.Machine

/-! ## A CTRL write and its command -/

/-- The dispatch of a CTRL write is `exec` of the command decoder's instruction (R114, R170). -/
theorem exec_decodeCmd (w : Word) (s : State) : exec (decodeCmd w) s = runCommandWord w s := by
  have hlt : (opOf w).toNat < 16 := (opOf w).isLt
  unfold decodeCmd runCommandWord
  generalize (opOf w).toNat = n at hlt ⊢
  interval_cases n <;> rfl

theorem decodeBus_ctrlWrite {t : Descriptor} (w : Word) (hw : isWrite t = true) (hs : slotOf t = 0) :
    decodeBus t w = .wrCtrl (laneOf t) w := by
  rw [decodeBus, if_pos hw, hs]
  rfl

/-- Settles O13: the two decoders differ on a CTRL write alone, whose meaning is the command's. -/
theorem ctrlWriteIsItsDecodedCommand : Obligations.CtrlWriteIsItsDecodedCommand := by
  intro t w s
  unfold decodeBusToCommand
  split
  · next h =>
    obtain ⟨hw, hs⟩ : isWrite t = true ∧ slotOf t = 0 := by simpa using h
    rw [decodeBus_ctrlWrite w hw hs]
    exact (exec_decodeCmd w s).symm
  · rfl

/-! ## The pseudo-instructions (R125) -/

/-- A CTRL write at offset 0 runs the command its data decodes to. -/
theorem exec_writeCtrl (w : Word) (s : State) : exec (decodeBus 0x40 w) s = exec (decodeCmd w) s :=
  (exec_decodeCmd w s).symm

theorem pull_word (n : Count) : n ++ 0x0001#16 = commandWord n 0 1 := by
  apply BitVec.eq_of_toNat_eq
  rw [commandWord_toNat, append_toNat]
  simp

/-- The transaction of a pseudo-instruction, run as the HOST's turn runs it. -/
def execPseudo (p : Pseudo) (s : State) : Host.Outcome State Fault Refusal := exec (decodeBus p.expand.1 p.expand.2) s

theorem execPseudo_nop (s : State) : execPseudo .nop s = exec (.nop 0 0) s := exec_writeCtrl 0 s

theorem execPseudo_ack (s : State) : execPseudo .ack s = exec (.ack 0 0) s := exec_writeCtrl 2 s

theorem execPseudo_pull (n : Count) (s : State) : execPseudo (.pull n) s = exec (.pull n 0) s := by
  rw [← decodeCmd_pull, ← pull_word]
  exact exec_writeCtrl _ s

theorem execPseudo_setbase (a : Addr) (s : State) :
    execPseudo (.setbase a) s = .next (s.whenIdle (State.setBufBase · a)) := congrArg (exec · s) (decodeBus_write 2 0 a)

theorem execPseudo_setgain (g : BitVec 16) (sh : BitVec 4) (s : State) :
    execPseudo (.setgain g sh) s = .next (s.whenIdle (State.setGain · (0#12 ++ sh ++ g))) :=
  congrArg (exec · s) (decodeBus_write 3 0 _)

theorem execPseudo_setclamp (lo hi : BitVec 16) (s : State) :
    execPseudo (.setclamp lo hi) s = .next (s.whenIdle (State.setClamp · (hi ++ lo))) :=
  congrArg (exec · s) (decodeBus_write 4 0 _)

theorem setGain_packed (s : State) (g : BitVec 16) (sh : BitVec 4) :
    s.setGain (0#12 ++ sh ++ g) = { s with csr := { s.csr with gain := g, shift := sh } } := by
  have hg : (0#12 ++ sh ++ g).extractLsb' 0 16 = g := BitVec.extractLsb'_append_eq_right
  have hsh : (0#12 ++ sh ++ g).extractLsb' 16 4 = sh :=
    (BitVec.extractLsb'_append_eq_of_le le_rfl).trans BitVec.extractLsb'_append_eq_right
  simp only [State.setGain, hg, hsh]

theorem setClamp_packed (s : State) (lo hi : BitVec 16) :
    s.setClamp (hi ++ lo) = { s with csr := { s.csr with clampLo := lo, clampHi := hi } } := by
  have hlo : (hi ++ lo).extractLsb' 0 16 = lo := BitVec.extractLsb'_append_eq_right
  have hhi : (hi ++ lo).extractLsb' 16 16 = hi := BitVec.extractLsb'_append_eq_left
  simp only [State.setClamp, hlo, hhi]

/-- Settles O14: the three commands are the CTRL writes of their words; the three configuration writes are not dropped while
idle, and the fields of their packed words are the operands. -/
theorem pseudoInstructionsAreTheirTransactions : Obligations.PseudoInstructionsAreTheirTransactions := by
  intro s n a g sh lo hi
  refine ⟨execPseudo_nop s, execPseudo_pull n s, execPseudo_ack s, fun hidle => ⟨?_, ?_, ?_⟩⟩
  · exact (execPseudo_setbase a s).trans (by rw [whenIdle_of_idle _ hidle, State.setBufBase])
  · exact (execPseudo_setgain g sh s).trans (by rw [whenIdle_of_idle _ hidle, setGain_packed])
  · exact (execPseudo_setclamp lo hi s).trans (by rw [whenIdle_of_idle _ hidle, setClamp_packed])

end Sys2Proof.Machine

namespace Sys2Proof.Machine

/-! ## The product of CONVERT (R152) -/

/-- The extremes are -32768 and 32767 times the largest multiplier, 65535. -/
theorem product_range (c : Csr) (f : Frame) : -2147450880 ≤ c.product f ∧ c.product f ≤ 2147385345 := by
  obtain ⟨hlo, hhi⟩ : -32768 ≤ frameValue f ∧ frameValue f ≤ 32767 := toInt_range _
  have hg0 : 0 ≤ c.multiplier := Int.natCast_nonneg _
  have hg : c.multiplier ≤ 65535 := by
    have := c.gain.isLt
    rw [Csr.multiplier]
    omega
  have hbelow : -32768 * c.multiplier ≤ c.product f := Int.mul_le_mul_of_nonneg_right hlo hg0
  have habove : c.product f ≤ 32767 * c.multiplier := Int.mul_le_mul_of_nonneg_right hhi hg0
  omega

/-- Settles O34: the range of the product lies inside that of a signed 32-bit word. -/
theorem productNeverOverflowsThirtyTwoBits : Obligations.ProductNeverOverflowsThirtyTwoBits := by
  intro c f
  obtain ⟨hlo, hhi⟩ := product_range c f
  refine ⟨rfl, hlo, hhi, ?_⟩
  exact BitVec.toInt_ofInt_eq_self (by decide) (Int.le_trans (by decide) hlo) (Int.lt_of_le_of_lt hhi (by decide))

/-! ## The floor and its saturation (R153, R154) -/

theorem pow_mul_scaled_le_product (c : Csr) (f : Frame) : 2 ^ c.fractionBits * c.scaled f ≤ c.product f :=
  Int.mul_ediv_self_le (by positivity)

theorem product_lt_pow_mul_scaled_add_one (c : Csr) (f : Frame) :
    c.product f < 2 ^ c.fractionBits * (c.scaled f + 1) :=
  (Int.lt_mul_ediv_self_add (by positivity)).trans_eq (mul_add_one _ _).symm

theorem convert_toInt_of_inside {c : Csr} {f : Frame} (hlo : c.lowerBound ≤ c.scaled f)
    (hhi : c.scaled f ≤ c.upperBound) : (c.convert f).toInt = c.scaled f := by
  rw [convert_toInt, Csr.saturated, max_eq_left hlo, min_eq_left hhi]

theorem convert_eq_clampLo {c : Csr} {f : Frame} (hb : c.lowerBound ≤ c.upperBound)
    (h : c.scaled f ≤ c.lowerBound) : c.convert f = c.clampLo := by
  apply BitVec.eq_of_toInt_eq
  rw [convert_toInt, Csr.saturated, max_eq_right h, min_eq_left hb, Csr.lowerBound]

/-- The upper bound is applied last, so it wins over the floor and over the lower bound alike. -/
theorem convert_eq_clampHi {c : Csr} {f : Frame} (h : c.upperBound ≤ max (c.scaled f) c.lowerBound) :
    c.convert f = c.clampHi := by
  apply BitVec.eq_of_toInt_eq
  rw [convert_toInt, Csr.saturated, min_eq_right h, Csr.upperBound]

/-- Settles O32: the floor is `Csr.scaled`, and each side of the bounds has its lemma. -/
theorem convertIsTheFlooredProductSaturated : Obligations.ConvertIsTheFlooredProductSaturated := by
  intro c f
  refine ⟨c.scaled f, pow_mul_scaled_le_product c f, product_lt_pow_mul_scaled_add_one c f, convert_toInt c f,
    fun hb => ⟨convert_toInt_of_inside, fun h => ?_, fun h => ?_⟩⟩
  · exact convert_eq_clampLo hb h.le
  · exact convert_eq_clampHi (le_max_of_le_left h.le)

/-- Settles O33: the maximum is at least LO, which is above HI (R155). -/
theorem invertedBoundsConvertEveryFrameToTheUpperBound :
    Obligations.InvertedBoundsConvertEveryFrameToTheUpperBound :=
  fun _ _ h => convert_eq_clampHi (le_max_of_le_right h.le)

/-! ## CONVERT at reset (R156) -/

theorem reset_scaled (f : Frame) : Csr.reset.scaled f = frameValue f * 4 := Int.ediv_one _

theorem reset_lowerBound : Csr.reset.lowerBound = -32768 := by decide

theorem reset_upperBound : Csr.reset.upperBound = 32767 := by decide

/-- Settles O31: at reset the floor is `v * 4`, and the edges are where it reaches the bounds. -/
theorem convertAtResetIsTimesFourSaturated : Obligations.ConvertAtResetIsTimesFourSaturated := by
  intro f v x
  have hq : Csr.reset.scaled f = v * 4 := reset_scaled f
  have hlo := reset_lowerBound
  have hhi := reset_upperBound
  refine ⟨?_, fun h => ?_, fun h => ?_, fun h h' => ?_⟩
  · exact (convert_toInt _ f).trans (by rw [Csr.saturated, hq, hlo, hhi])
  · exact convert_eq_clampHi (by omega)
  · exact convert_eq_clampLo (by omega) (by omega)
  · exact (convert_toInt_of_inside (by omega) (by omega)).trans (by omega)

/-! ## What CONVERT reads (R151, R157) -/

/-- Settles O35: the product reads the upper half and GAIN, the floor SHIFT, and the saturation the two bounds. -/
theorem convertDependsOnTheUpperHalfAndConfigurationAlone :
    Obligations.ConvertDependsOnTheUpperHalfAndConfigurationAlone := by
  intro c c' f f' hv hg hsh hlo hhi
  have hp : c.product f = c'.product f' := by
    rw [Csr.product, Csr.product, frameValue, frameValue, Csr.multiplier, Csr.multiplier, hv, hg]
  have hq : c.scaled f = c'.scaled f' := by
    rw [Csr.scaled, Csr.scaled, Csr.fractionBits, Csr.fractionBits, hp, hsh]
  have hs : c.saturated f = c'.saturated f' := by
    simp only [Csr.saturated, Csr.lowerBound, Csr.upperBound, hq, hlo, hhi]
  rw [Csr.convert, Csr.convert, hs]

end Sys2Proof.Machine

/-! # The commands (41_commands.md)

Each command's meaning is guarded by BUSY (`whenIdle_eq`), and PULL's by its length (`startPull_eq`); `runCommandWord_eq` puts the
opcodes in the order of the dispatch, and `hostTurn_of_busy` is all that a BUS transaction can do to a pull in flight. -/

namespace Sys2Proof.Machine

/-! ## The guards and the dispatch -/

/-- The BUSY check in the words of R176. -/
theorem whenIdle_eq (s : State) (effect : State → State) :
    s.whenIdle effect = if s.eng.state ≠ .idle then s.flagProtocolError else effect s := by
  rcases whenIdle_cases s effect with ⟨hs, h⟩ | ⟨hs, h⟩ <;> simp [h, hs]

/-- PULL past the BUSY check, its length check in the words of R172. -/
theorem startPull_eq (len : Count) (s : State) :
    s.startPull len =
      if len = 0 ∨ len.getLsbD 0 = true then
        { s with
          csr := { s.csr with result := .rejected, done := true }
          eng := { s.eng with len := len, produced := 0 } }
      else
        { s with
          csr := { s.csr with result := .none, done := false }
          eng := { s.eng with len := len, produced := 0, state := .issue } } := by
  have hcheck : ¬(len = 0 ∨ len.getLsbD 0 = true) ↔ len.toNat ≠ 0 ∧ len.toNat % 2 = 0 := by
    rw [length_legal_iff, not_or, Bool.not_eq_true]
    rfl
  rcases startPull_cases len s with ⟨hlegal, h⟩ | ⟨hillegal, h⟩ <;> rw [h]
  · rw [if_neg (hcheck.2 hlegal)]
  · rw [if_pos (not_not.1 (mt hcheck.1 hillegal))]

/-- What a non-NOP opcode does once the BUSY check is passed (R170). -/
def opcodeEffect (op : BitVec 4) (len : Count) (s : State) : State :=
  if op = 1 then s.startPull len else if op = 2 then s.release else s.flagProtocolError

theorem opcodeEffect_reserved {op : BitVec 4} (len : Count) (hpull : op ≠ 1) (hack : op ≠ 2) :
    opcodeEffect op len = State.flagProtocolError := by
  funext s
  rw [opcodeEffect, if_neg hpull, if_neg hack]

theorem runCommandWord_eq (w : Word) (s : State) :
    runCommandWord w s = .next (if opOf w = 0 then s else s.whenIdle (opcodeEffect (opOf w) (lenOf w))) := by
  have hopcode : ∀ n < 16, (opOf w).toNat = n → opOf w = BitVec.ofNat 4 n := fun n hn => (four_bit_eq_iff _ n hn).2
  rcases runCommandWord_cases w s with ⟨hop, h⟩ | ⟨hop, h⟩ | ⟨hop, h⟩ | ⟨hop, h⟩ <;> rw [h]
  · rw [hopcode 0 (by omega) hop]
    rfl
  · rw [hopcode 1 (by omega) hop]
    rfl
  · rw [hopcode 2 (by omega) hop]
    rfl
  · have hnop : opOf w ≠ 0 := fun h0 => by simp [h0] at hop
    obtain ⟨hpull, hack⟩ := reserved_opcode_ne hop
    rw [if_neg hnop, opcodeEffect_reserved _ hpull hack]

theorem runCommandWord_of_busy {w : Word} {s : State} (hb : s.eng.state ≠ .idle) (hop : opOf w ≠ 0) :
    runCommandWord w s = .next s.flagProtocolError := by
  rw [runCommandWord_eq, if_neg hop, whenIdle_of_busy _ hb]

/-! ## The HOST's turn during a pull -/

/-- During a pull a BUS transaction is a read, an ignored write, or a write dropped with PROTO_ERR (R176, R190, R191). -/
theorem hostTurn_of_busy (d : Descriptor) (w : Word) {s : State} (hb : s.eng.state ≠ .idle) :
    (∃ v, hostTurn d w s = .next (s.emit (.rdata v))) ∨
      hostTurn d w s = .next (s.observeDone.emit (.rdata s.statusWord)) ∨
      hostTurn d w s = .next s ∨ hostTurn d w s = .next s.flagProtocolError := by
  rcases host_cases d w s with ⟨v, h, -⟩ | ⟨h, -⟩ | ⟨h, -⟩ | ⟨h, -⟩ | ⟨h, -⟩
  · exact Or.inl ⟨v, h⟩
  · exact Or.inr (Or.inl h)
  · exact Or.inr (Or.inr (Or.inl h))
  · rw [whenIdle_of_busy _ hb, whenIdle_of_busy _ hb, whenIdle_of_busy _ hb, or_self, or_self] at h
    exact Or.inr (Or.inr (Or.inr h))
  · rw [runCommandWord_eq, whenIdle_of_busy _ hb] at h
    split at h
    · exact Or.inr (Or.inr (Or.inl h))
    · exact Or.inr (Or.inr (Or.inr h))

/-! ## The obligations -/

/-- Settles O12: the dispatch, with both guards written out. -/
theorem ctrlWriteRunsItsDataAsACommand : Obligations.CtrlWriteRunsItsDataAsACommand := by
  intro lane w s op len flagged
  refine (runCommandWord_eq w s).trans ?_
  rw [whenIdle_eq, opcodeEffect, startPull_eq]
  rfl

/-- Settles O44: in each of the four outcomes the block keeps everything but PROTO_ERR. -/
theorem busTransactionsNeverDisturbAPullInFlight : Obligations.BusTransactionsNeverDisturbAPullInFlight := by
  intro s d w rest hb hs
  rw [step_cons hs]
  rcases hostTurn_of_busy d w (s := { s with schedule := rest }) hb with ⟨v, h⟩ | h | h | h <;>
    exact ⟨_, h, by simp⟩

/-- Settles O7: NOP has no guard and no effect. -/
theorem nopChangesNothing : Obligations.NopChangesNothing := fun _ _ _ => rfl

/-- Settles O8: while idle PULL is its length check. -/
theorem pullWhileIdleStartsOrRejects : Obligations.PullWhileIdleStartsOrRejects := by
  intro len rsv s hs
  have hpull : exec (.pull len rsv) s = .next (s.startPull len) := congrArg _ (whenIdle_of_idle _ hs)
  rw [hpull, startPull_eq]
  refine ⟨fun hne heven => ?_, fun hillegal => ?_⟩
  · rw [if_neg (not_or.2 ⟨hne, by rw [heven]; exact Bool.false_ne_true⟩)]
  · rw [if_pos hillegal]

/-- Settles O9: while idle ACK is its release. -/
theorem ackWhileIdleReleasesTheResult : Obligations.AckWhileIdleReleasesTheResult :=
  fun _ _ _ hs => congrArg _ (whenIdle_of_idle State.release hs)

/-- Settles O10: a reserved opcode's effect while idle is the one the BUSY check has. -/
theorem reservedOpcodesOnlySetProtoErr : Obligations.ReservedOpcodesOnlySetProtoErr := by
  intro len rsv op s flagged
  have hreserved : reservedCommand s = .next flagged :=
    congrArg _ ((whenIdle_eq s _).trans (ite_self _))
  exact ⟨hreserved, hreserved, hreserved⟩

/-- Settles O11: PULL, ACK and the dispatch meet the BUSY check first. -/
theorem commandsWhileBusyAreDroppedWithProtoErr : Obligations.CommandsWhileBusyAreDroppedWithProtoErr := by
  intro s hb flagged
  refine ⟨fun len rsv => ⟨?_, ?_⟩, fun lane w hop => runCommandWord_of_busy hb hop⟩
  · exact congrArg _ (whenIdle_of_busy (State.startPull len) hb)
  · exact congrArg _ (whenIdle_of_busy State.release hb)

end Sys2Proof.Machine

/-! # The CSR accesses (42_csr_access.md)

`exec_decodeRead` says in one equation what every CSR read emits and leaves, and `exec_decodeWrite_cases` what a CSR write
other than to CTRL can do. -/

namespace Sys2Proof.Machine

/-! ## The words the registers read as -/

/-- A word whose field of `len` bits from bit `start` on is 0 has no bit in common with that field's mask. -/
theorem and_mask_of_field_zero {x : Word} {start len : Nat} (h : x.extractLsb' start len = 0) :
    x &&& (BitVec.allOnes len).setWidth 32 <<< start = 0 := by
  refine BitVec.eq_of_getLsbD_eq fun i hi => ?_
  by_cases hlo : i < start
  · simp [hlo, -BitVec.getLsbD_eq_getElem]
  · by_cases hhi : i - start < len
    · have hindex : start + (i - start) = i := by omega
      have hbit : x.getLsbD i = false := by
        have := congrArg (·.getLsbD (i - start)) h
        simpa [BitVec.getLsbD_extractLsb', hhi, hindex, -BitVec.getLsbD_eq_getElem] using this
      simp [hbit, -BitVec.getLsbD_eq_getElem]
    · simp [hhi, -BitVec.getLsbD_eq_getElem]

/-- STATUS as a number: each flag at the weight of its bit (R35). -/
theorem statusWord_toNat (s : State) :
    s.statusWord.toNat = s.eng.produced.toNat * 65536 + s.csr.protoErr.toNat * 16 + s.csr.result.code.toNat * 4 +
      s.csr.done.toNat * 2 + s.busy.toNat := by
  simp only [State.statusWord, append_toNat, BitVec.toNat_ofBool, BitVec.toNat_ofNat]
  omega

theorem statusWord_fields (s : State) :
    s.statusWord.extractLsb' 16 16 = s.eng.produced ∧ s.statusWord.extractLsb' 5 11 = 0 ∧
      s.statusWord.getLsbD 4 = s.csr.protoErr ∧ s.statusWord.extractLsb' 2 2 = s.csr.result.code ∧
      s.statusWord.getLsbD 1 = s.csr.done ∧ s.statusWord.getLsbD 0 = s.busy := by
  have herr := s.csr.protoErr.toNat_le
  have hdone := s.csr.done.toNat_le
  have hbusy := s.busy.toNat_le
  have hcode := s.csr.result.code.isLt
  have hprod := s.eng.produced.isLt
  refine ⟨?_, ?_, ?_, ?_, ?_, ?_⟩
  case refine_1 | refine_2 | refine_4 =>
    apply BitVec.eq_of_toNat_eq
    simp only [BitVec.extractLsb'_toNat, statusWord_toNat, Nat.shiftRight_eq_div_pow, BitVec.ofNat_eq_ofNat,
      BitVec.toNat_ofNat]
    omega
  all_goals
    simp only [State.statusWord, BitVec.getLsbD_append]
    simp

theorem gainWord_reserved (c : Csr) : c.gainWord.extractLsb' 20 12 = 0 := by
  rw [Csr.gainWord, BitVec.append_assoc]
  exact BitVec.extractLsb'_append_eq_left

theorem zeroExtended_reserved (n : Count) : (0#16 ++ n).extractLsb' 16 16 = 0 := BitVec.extractLsb'_append_eq_left

/-! ## Reads (R190) -/

/-- The word a read of a slot emits (R192 to R206). -/
def readWord (slot : BitVec 4) (s : State) : Word :=
  match slot.toNat with
  | 1 => s.statusWord
  | 2 => s.csr.bufBase
  | 3 => s.csr.gainWord
  | 4 => s.csr.clampWord
  | 5 => s.csr.paramWord
  | 6 => s.reqLenWord
  | _ => 0

/-- The state a read of a slot emits from: reading STATUS may order the HOST after the block's writes (R97, R98). -/
def observedBy (slot : BitVec 4) (s : State) : State :=
  match slot.toNat with
  | 1 => s.observeDone
  | _ => s

/-- Every CSR read emits the word of its slot. -/
theorem exec_decodeRead (slot : BitVec 4) (lane : BitVec 2) (s : State) :
    exec (decodeRead slot lane) s = .next ((observedBy slot s).emit (.rdata (readWord slot s))) := by
  have hlt : slot.toNat < 16 := slot.isLt
  unfold decodeRead observedBy readWord
  generalize slot.toNat = n at hlt ⊢
  interval_cases n <;> rfl

theorem exec_decodeBus_read {t : Descriptor} (w : Word) (s : State) (hread : isWrite t = false) :
    exec (decodeBus t w) s = .next ((observedBy (slotOf t) s).emit (.rdata (readWord (slotOf t) s))) := by
  rw [decodeBus, hread]
  exact exec_decodeRead ..

/-- CTRL and the reserved slots. -/
theorem readWord_of_no_register {slot : BitVec 4} (s : State) (h : slot = 0 ∨ 7 ≤ slot.toNat) :
    readWord slot s = 0 := by
  have h : slot.toNat = 0 ∨ 7 ≤ slot.toNat := h.imp_left (congrArg BitVec.toNat)
  unfold readWord
  split
  case h_7 => rfl
  all_goals omega

/-- The word depends on the CSR file and the engine alone. -/
theorem readWord_congr {s u : State} (slot : BitVec 4) (hcsr : u.csr = s.csr) (heng : u.eng = s.eng) :
    readWord slot u = readWord slot s := by
  simp only [readWord, State.statusWord, State.busy, State.reqLenWord, hcsr, heng]

/-- No read changes the block, OUTMEM, the channel, the schedule or what has been emitted before it. -/
theorem observedBy_frame (slot : BitVec 4) (s : State) :
    (observedBy slot s).csr = s.csr ∧ (observedBy slot s).eng = s.eng ∧ (observedBy slot s).burst = s.burst ∧
      (observedBy slot s).outmem = s.outmem ∧ (observedBy slot s).channel = s.channel ∧
      (observedBy slot s).schedule = s.schedule ∧ (observedBy slot s).trace = s.trace := by
  unfold observedBy
  split
  · simp
  · simp

theorem readWord_after_read (slot : BitVec 4) (s : State) (o : Observation) :
    readWord slot ((observedBy slot s).emit o) = readWord slot s := by
  obtain ⟨hcsr, heng, -⟩ := observedBy_frame slot s
  exact readWord_congr slot hcsr heng

/-! ## Writes other than to CTRL (R191) -/

/-- Such a write is ignored, or it is guarded by BUSY and sets the register of its slot. -/
theorem exec_decodeWrite_cases {slot : BitVec 4} (lane : BitVec 2) (w : Word) (s : State) (hctrl : slot ≠ 0) :
    exec (decodeWrite slot lane w) s = .next s ∨
      ∃ effect, exec (decodeWrite slot lane w) s = .next (s.whenIdle effect) ∧
        (slot = 2 ∧ effect = (State.setBufBase · w) ∨ slot = 3 ∧ effect = (State.setGain · w) ∨
          slot = 4 ∧ effect = (State.setClamp · w)) := by
  unfold decodeWrite
  split
  case h_1 h => exact absurd (BitVec.eq_of_toNat_eq h) hctrl
  case h_3 h => exact Or.inr ⟨_, rfl, Or.inl ⟨BitVec.eq_of_toNat_eq h, rfl⟩⟩
  case h_4 h => exact Or.inr ⟨_, rfl, Or.inr (Or.inl ⟨BitVec.eq_of_toNat_eq h, rfl⟩)⟩
  case h_5 h => exact Or.inr ⟨_, rfl, Or.inr (Or.inr ⟨BitVec.eq_of_toNat_eq h, rfl⟩)⟩
  all_goals exact Or.inl rfl

/-! ## The obligations -/

/-- Settles O18: a second read finds the CSR file and the engine as the first found them, and each reserved field is a
constant part of its register's word. -/
theorem everyCsrReadIsIdempotentAndChangesNoState : Obligations.EveryCsrReadIsIdempotentAndChangesNoState := by
  intro t w s hread
  have hexec (u : State) := exec_decodeBus_read w u hread
  obtain ⟨hcsr, heng, hburst, hmem, hchan, hsched, htrace⟩ := observedBy_frame (slotOf t) s
  refine ⟨readWord (slotOf t) s, _, _, hexec s, hexec _, congrArg _ htrace, ?_, hcsr, heng, hburst, hmem, hchan, hsched,
    congrArg Csr.done hcsr, ?_, ?_, ?_, readWord_of_no_register s⟩
  · obtain ⟨-, -, -, -, -, -, hkept⟩ := observedBy_frame (slotOf t) ((observedBy (slotOf t) s).emit _)
    rw [emit_trace, hkept, readWord_after_read]
  · intro (hslot : slotOf t = 1)
    rw [hslot]
    obtain ⟨-, hzero, -⟩ := statusWord_fields s
    exact and_mask_of_field_zero hzero
  · intro (hslot : slotOf t = 3)
    rw [hslot]
    exact and_mask_of_field_zero (gainWord_reserved s.csr)
  · rintro ((hslot : slotOf t = 5) | (hslot : slotOf t = 6)) <;> rw [hslot]
    · exact and_mask_of_field_zero (zeroExtended_reserved s.csr.burstCap)
    · exact and_mask_of_field_zero (zeroExtended_reserved s.eng.len)

/-- Settles O21: an ignored and a dropped write set no register, and an accepted one sets that of its slot. -/
theorem csrWriteChangesOnlyItsRegisterAndProtoErr : Obligations.CsrWriteChangesOnlyItsRegisterAndProtoErr := by
  intro t w s hwrite (hctrl : slotOf t ≠ 0)
  rw [decodeBus, show isWrite t = true from hwrite]
  rcases exec_decodeWrite_cases (laneOf t) w s hctrl with h | ⟨effect, h, hset⟩
  · exact ⟨_, h, rfl, rfl, rfl, rfl, fun _ => rfl, fun _ => ⟨rfl, rfl⟩, fun _ => ⟨rfl, rfl⟩⟩
  · refine ⟨_, h, ?_⟩
    rcases whenIdle_cases s effect with ⟨-, hw⟩ | ⟨-, hw⟩ <;> rw [hw]
    · rcases hset with ⟨hs, rfl⟩ | ⟨hs, rfl⟩ | ⟨hs, rfl⟩
      · exact ⟨rfl, rfl, rfl, rfl, fun hne => absurd hs hne, fun _ => ⟨rfl, rfl⟩, fun _ => ⟨rfl, rfl⟩⟩
      · exact ⟨rfl, rfl, rfl, rfl, fun _ => rfl, fun hne => absurd hs hne, fun _ => ⟨rfl, rfl⟩⟩
      · exact ⟨rfl, rfl, rfl, rfl, fun _ => rfl, fun _ => ⟨rfl, rfl⟩, fun hne => absurd hs hne⟩
    · exact ⟨rfl, rfl, rfl, rfl, fun _ => rfl, fun _ => ⟨rfl, rfl⟩, fun _ => ⟨rfl, rfl⟩⟩

/-- Settles O15: STATUS is read after what it may order the HOST by, which is no state of the block. -/
theorem statusReadReturnsTheStatusFields : Obligations.StatusReadReturnsTheStatusFields := by
  intro lane s
  obtain ⟨hprod, hzero, herr, hresult, hdone, hbusy⟩ := statusWord_fields s
  exact ⟨s.statusWord, s.observeDone.emit (.rdata s.statusWord), rfl, by simp, hprod, hzero, herr, hresult, hdone,
    by rw [hbusy, busy_iff], by simp⟩

/-- Settles O16: GAIN's and CLAMP's words are their fields side by side. -/
theorem configurationReadsReturnTheRegisters : Obligations.ConfigurationReadsReturnTheRegisters :=
  fun _ _ => ⟨rfl, rfl, rfl⟩

/-- Settles O17: a read but that of STATUS only emits. -/
theorem hardwiredAndReservedReads : Obligations.HardwiredAndReservedReads :=
  fun _ _ _ => ⟨rfl, rfl, rfl, rfl, rfl⟩

/-- Settles O19: the BUSY check decides between the write's effect and PROTO_ERR. -/
theorem configurationWritesWhileIdleAndBusy : Obligations.ConfigurationWritesWhileIdleAndBusy := by
  intro lane w s
  refine ⟨fun hidle => ⟨?_, ?_, ?_⟩, fun hbusy => ⟨?_, ?_, ?_⟩⟩
  · exact congrArg _ (whenIdle_of_idle (State.setBufBase · w) hidle)
  · exact congrArg _ (whenIdle_of_idle (State.setGain · w) hidle)
  · exact congrArg _ (whenIdle_of_idle (State.setClamp · w) hidle)
  all_goals exact congrArg _ (whenIdle_of_busy _ hbusy)

/-- Settles O20: these writes have no meaning but the unchanged state. -/
theorem writesToReadOnlyAndReservedSlotsAreIgnored : Obligations.WritesToReadOnlyAndReservedSlotsAreIgnored :=
  fun _ _ _ _ => ⟨rfl, rfl, rfl, rfl, rfl⟩

end Sys2Proof.Machine

/-! # The pull engine's steps (43_pull_engine.md)

The SOURCE's turn is decided by `acceptsBeat_iff` and the ENGINE's by its state (R220); the rules of R221 to R227 are what these
turns then do. -/

namespace Sys2Proof.Machine

/-! ## The SOURCE's turn -/

/-- The backpressure rule of R223: a beat is accepted in WAIT alone, and a Frame beat only while fewer than `req` have been. -/
theorem acceptsBeat_iff (s : State) (b : Beat) :
    s.acceptsBeat b = true ↔
      s.eng.state = .wait ∧ (b.getLsbD 33 = false → s.eng.k.toNat < s.eng.req.toNat) := by
  unfold State.acceptsBeat
  cases b.getLsbD 33 <;> simp [State.acceptsEnd, State.acceptsFrame]

theorem acceptsBeat_of_not_wait {s : State} (b : Beat) (hs : s.eng.state ≠ .wait) : s.acceptsBeat b = false :=
  Bool.eq_false_iff.2 fun h => hs ((acceptsBeat_iff s b).1 h).1

theorem acceptsBeat_of_full {s : State} {b : Beat} (hkind : b.getLsbD 33 = false) (hfull : s.eng.k = s.eng.req) :
    s.acceptsBeat b = false :=
  Bool.eq_false_iff.2 fun h => Nat.lt_irrefl _ (hfull ▸ ((acceptsBeat_iff s b).1 h).2 hkind)

theorem sourceTurn_empty {s : State} (hc : s.channel = []) : sourceTurn s = .next s := by
  rw [sourceTurn, hc]

/-- Outside WAIT no beat is accepted, whatever the SOURCE has offered. -/
theorem sourceTurn_of_not_wait {s : State} (hs : s.eng.state ≠ .wait) : sourceTurn s = .next s := by
  cases hc : s.channel with
  | nil => exact sourceTurn_empty hc
  | cons b more => exact sourceTurn_refused hc (acceptsBeat_of_not_wait b hs)

theorem sourceTurn_accepted {s : State} {b : Beat} {more : List Beat} (hc : s.channel = b :: more)
    (h : s.acceptsBeat b = true) : sourceTurn s = exec (decode (.src b)) { s with channel := more } := by
  rw [sourceTurn, hc]
  exact if_pos h

theorem acceptsFrame_iff (s : State) :
    s.acceptsFrame = true ↔ s.eng.state = .wait ∧ s.eng.k.toNat < s.eng.req.toNat := by
  simp [State.acceptsFrame]

theorem acceptsEnd_iff (s : State) : s.acceptsEnd = true ↔ s.eng.state = .wait := by
  simp [State.acceptsEnd]

/-! ## The Burst buffer under a Frame beat (R222) -/

theorem burstEntry_takeFrame_self (s : State) (d : Frame) : (s.takeFrame d).burstEntry s.eng.k = d := by
  simp [State.burstEntry]

theorem burstEntry_takeFrame_ne {s : State} {j : Count} (d : Frame) (h : j ≠ s.eng.k) :
    (s.takeFrame d).burstEntry j = s.burstEntry j := by
  have hne : j.toNat ≠ s.eng.k.toNat := fun e => h (BitVec.eq_of_toNat_eq e)
  simp [State.burstEntry, cellLookup_insert_ne _ _ hne]

/-! ## The two bytes of a Sample (R84) -/

theorem Memory.read_writeSample_low (m : List Host.Cell) (a : Addr) (x : Sample) :
    Memory.read (Memory.writeSample m a x) a = x.extractLsb' 0 8 := by
  rw [Memory.writeSample_eq, Memory.read_write_ne _ _ (addr_succ_ne a).symm, Memory.read_write_self]

theorem Memory.read_writeSample_high (m : List Host.Cell) (a : Addr) (x : Sample) :
    Memory.read (Memory.writeSample m a x) (a + 1) = x.extractLsb' 8 8 := by
  rw [Memory.writeSample_eq, Memory.read_write_self]

/-! ## The ENGINE's turn -/

/-- The ENGINE has no step in IDLE and in WAIT (R220). -/
theorem engineStep_of_idle_or_wait {s : State} (a : Bool) (hs : s.eng.state = .idle ∨ s.eng.state = .wait) :
    s.engineStep a = s := by
  unfold State.engineStep
  rcases hs with hs | hs <;> rw [hs]

/-- A write that OUTMEM does not accept is not taken (R93). -/
theorem engineStep_stalled {s : State} (hs : s.eng.state = .write) (hik : s.eng.i.toNat < s.eng.k.toNat) :
    s.engineStep false = s := by
  have hne : s.eng.i ≠ s.eng.k := fun e => Nat.lt_irrefl _ (e ▸ hik)
  rcases engineStep_cases s false with ⟨h, -⟩ | ⟨-, h, -⟩ | ⟨-, -, h, -⟩ | ⟨-, -, -, h⟩
  · rw [hs] at h
    cases h
  · exact absurd h hne
  · cases h
  · exact h

theorem step_engine {s t : State} {a : Bool} {rest : List Event} (hsched : s.schedule = .engine a :: rest)
    (h : ({ s with schedule := rest } : State).engineStep a = t) : step s = .next t := by
  rw [step_cons hsched, ← h]
  rfl

/-- Before the end of the region a request asks for at least one Frame and at most BURST_CAP (R221). -/
theorem nextRequest_bounds {s : State} (hI : s.Inv) (hs : s.eng.state = .issue) (hp : s.eng.produced ≠ s.eng.len) :
    1 ≤ s.nextRequest.toNat ∧ s.nextRequest.toNat ≤ s.csr.burstCap.toNat := by
  have hwait := inv_issue hI hs
  rcases issue_cases s with ⟨h, -⟩ | ⟨-, ht⟩
  · exact absurd h hp
  · rw [ht] at hwait
    obtain ⟨-, hone, -⟩ := hwait.waitRequest rfl
    exact ⟨hone, by rw [nextRequest_toNat]; exact min_le_right _ _⟩

/-! ## The obligations on single steps -/

/-- Settles O51: every agent's turn keeps the invariant. -/
theorem everyStepKeepsTheInvariant : Obligations.EveryStepKeepsTheInvariant := fun _ _ => step_keeps_inv

/-- Settles O50: nothing is held, nothing is in flight, and all memories are empty. -/
theorem resetMeetsTheInvariant : Obligations.ResetMeetsTheInvariant where
  doneIffResult := by decide
  doneIdle := fun _ => rfl
  producedEven := rfl
  busyLen := fun h => absurd rfl h
  waitRequest := nofun
  writeFits := nofun
  burstHeld := nofun
  okComplete := nofun
  capLegal := by decide
  burstBounded := ⟨List.Pairwise.nil, nofun⟩
  outmemWf := Memory.wf_nil
  viewsWf := ⟨Memory.wf_nil, Memory.wf_nil⟩
  viewsReplay := replays_reset

/-- Settles O4: the turn goes by `acceptsBeat`. -/
theorem stepAcceptsOrHoldsTheHeadBeat : Obligations.StepAcceptsOrHoldsTheHeadBeat := by
  intro s b bs rest hsched hc
  have hstep : step s = sourceTurn { s with schedule := rest } := step_cons hsched
  rw [hstep]
  refine ⟨fun hs hk => ?_, fun hs => ?_, fun hkind hfull => ?_⟩
  · exact sourceTurn_accepted hc ((acceptsBeat_iff _ b).2 ⟨hs, hk⟩)
  · exact sourceTurn_refused hc (acceptsBeat_of_not_wait b hs)
  · exact sourceTurn_refused hc (acceptsBeat_of_full hkind hfull)

/-- Settles O5: one clause for each state of the engine, and in WRITE for each outcome of the test on `i`. -/
theorem stepTakesTheEnabledEngineStep : Obligations.StepTakesTheEnabledEngineStep := by
  intro s a rest hsched
  refine ⟨fun hs => step_engine hsched (engineStep_of_idle_or_wait a hs),
    fun hs => step_engine hsched (engineStep_issue a hs),
    fun hs hik => step_engine hsched (engineStep_writeEnd a hs hik), fun hs hik => step_engine hsched ?_⟩
  cases a with
  | false => exact engineStep_stalled hs hik
  | true => exact engineStep_writeSample hs hik

/-- Settles O6: an empty schedule names no agent, and an empty channel has no head beat. -/
theorem stepWithNoEnabledAgentChangesNothing : Obligations.StepWithNoEnabledAgentChangesNothing :=
  fun _ => ⟨step_nil, fun _ hsched hc => (step_cons hsched).trans (sourceTurn_empty hc)⟩

/-- Settles O23: `takeFrame` writes entry `k` alone. -/
theorem frameBeatFillsTheNextBurstEntry : Obligations.FrameBeatFillsTheNextBurstEntry := by
  intro st d s hs hk
  have hexec : exec (.frame st d) s = .next (s.takeFrame d) :=
    congrArg _ (if_pos ((acceptsFrame_iff s).2 ⟨hs, hk⟩))
  exact ⟨_, hexec, rfl, burstEntry_takeFrame_self s d, fun _ => burstEntry_takeFrame_ne d⟩

/-- Settles O24: neither check of R223 is met. -/
theorem beatsAreRefusedWithoutEffect : Obligations.BeatsAreRefusedWithoutEffect := by
  intro st d data s
  refine ⟨fun h => congrArg _ (if_neg ?_), fun hs => ⟨congrArg _ (if_neg ?_), congrArg _ (if_neg ?_)⟩⟩
  · rw [acceptsFrame_iff]
    rintro ⟨hs, hk⟩
    rcases h with h | h
    · exact h hs
    · exact Nat.lt_irrefl _ (h ▸ hk)
  all_goals rwa [acceptsEnd_iff]

/-- Settles O25: in WAIT an End beat is accepted. -/
theorem endOkMovesToWrite : Obligations.EndOkMovesToWrite :=
  fun _ s hs => congrArg _ (if_pos ((acceptsEnd_iff s).2 hs))

/-- Settles O26: in WAIT an End beat is accepted, and `complete` (R228) sets the result, DONE and IDLE alone. -/
theorem endFaultCompletesThePullWithFault : Obligations.EndFaultCompletesThePullWithFault :=
  fun _ s hs => congrArg _ (if_pos ((acceptsEnd_iff s).2 hs))

/-- Settles O27: ISSUE's two outcomes; the request's bounds are the invariant's in the WAIT it leads to. -/
theorem issueCompletesOrRequestsTheNextRead : Obligations.IssueCompletesOrRequestsTheNextRead := by
  intro s a rest hI hsched hs
  rw [step_engine hsched (engineStep_issue a hs)]
  rcases issue_cases { s with schedule := rest } with ⟨hend, ht⟩ | ⟨hend, ht⟩ <;> rw [ht]
  · exact ⟨fun _ => rfl, fun hne => absurd hend hne⟩
  · obtain ⟨hone, hcap⟩ := nextRequest_bounds hI hs hend
    exact ⟨fun heq => absurd heq hend, fun _ => ⟨s.nextRequest, nextRequest_toNat s, hone, hcap, rfl⟩⟩

/-- Settles O28: the two bytes of `Memory.writeSample`, at the cursor and the next address. -/
theorem writeSampleWritesTheConvertedFrameAtTheCursor :
    Obligations.WriteSampleWritesTheConvertedFrameAtTheCursor := by
  intro s rest hsched hs hik x addr
  exact ⟨_, step_engine hsched (engineStep_writeSample hs hik), rfl, Memory.read_writeSample_low s.outmem addr x,
    Memory.read_writeSample_high s.outmem addr x, fun _ => Memory.read_writeSample_ne s.outmem x⟩

/-- Settles O42: of the kinds of step PULL alone leaves IDLE, and `complete` and reset alone reach it. -/
theorem pullStartsAndEndsOnlyByTheListedSteps : Obligations.PullStartsAndEndsOnlyByTheListedSteps := by
  intro s t e rest hs ht
  cases step_effect hs ht with
  | reset he _ heng =>
    subst he
    simp [heng, Engine.reset, Event.command]
  | command w he heff =>
    obtain ⟨hr, -, hcomp, -⟩ := command_exclusive (s := s) he
    cases heff with
    | nop hop _ heng => simp +contextual [heng, he, hr, hcomp, hop]
    | dropped hs hop _ heng => simp [heng, hr, hcomp, hs]
    | reserved hs hop _ heng => simp [heng, he, hs, (reserved_opcode_ne hop).1]
    | accepted hs hop hne heven _ heng => simp [heng, he, hs, hop, hne, heven, -BitVec.getLsbD_eq_getElem]
    | rejected hs hop hlen _ heng =>
      rcases hlen with hlen | hlen <;> simp [heng, he, hs, hop, hlen, -BitVec.getLsbD_eq_getElem]
    | released hs hop _ heng => simp [heng, he, hs, hop]
  | configBusy he hs _ heng =>
    obtain ⟨hr, -, hcomp, -⟩ := writesConfig_exclusive (s := s) he
    simp [heng, hs, hr, hcomp]
  | configIdle he hs _ _ _ _ heng =>
    obtain ⟨-, hcmd, -, -⟩ := writesConfig_exclusive (s := s) he
    simp [heng, hs, hcmd]
  | complete he _ heng =>
    obtain ⟨-, hcmd, -, -⟩ := completes_exclusive he
    simp [heng, he, hcmd]
  | writeSample he _ heng =>
    obtain ⟨hr, hcmd, -, hcomp⟩ := takesWriteSample_exclusive he
    simp +contextual [heng, hcmd, hr, hcomp]
  | other hr hcmd _ hcomp _ _ _ hidle => simp +contextual [hidle, hcmd, hr, hcomp]

end Sys2Proof.Machine

/-! # Whole pulls (43_pull_engine.md)

`Leads es s t` runs a list of turns and composes with the next list (`Leads.append`); `Advances rs xs s t` is what the pull has
requested and written on the way, and composes alongside (`Advances.trans`). A read is put together from its turns
(`leads_okRead`), the reads one after another by induction on the bursts (`leads_okReads`), and a whole pull from these. -/

namespace Sys2Proof.Machine

/-! ## Samples written one after another -/

/-- The Samples of a burst written from `a` on, each two addresses after the one before it (R83, R226). -/
def Memory.writeSamples (m : List Host.Cell) (a : Addr) : List Sample → List Host.Cell
  | [] => m
  | x :: xs => Memory.writeSamples (Memory.writeSample m a x) (a + 2) xs

theorem Memory.writeSamples_append (xs ys : List Sample) (m : List Host.Cell) (a : Addr) :
    Memory.writeSamples m a (xs ++ ys) =
      Memory.writeSamples (Memory.writeSamples m a xs) (a + BitVec.ofNat 32 (2 * xs.length)) ys := by
  induction xs generalizing m a with
  | nil => simp [Memory.writeSamples]
  | cons x xs ih =>
    have hnext : a + 2 + BitVec.ofNat 32 (2 * xs.length) = a + BitVec.ofNat 32 (2 * (x :: xs).length) := by
      rw [List.length_cons]
      bv_omega
    rw [List.cons_append, Memory.writeSamples, ih, hnext, Memory.writeSamples]

theorem keepsOutside_writeSamples (xs : List Sample) (m : List Host.Cell) (a : Addr) :
    keepsOutside m (Memory.writeSamples m a xs) a (2 * xs.length) := by
  induction xs generalizing m a with
  | nil => exact fun _ _ => rfl
  | cons x xs ih =>
    intro y hy
    rw [List.length_cons] at hy
    have hoff : 2 * xs.length ≤ (y - (a + 2)).toNat := by bv_omega
    have h0 : y ≠ a := by bv_omega
    have h1 : y ≠ a + 1 := by bv_omega
    rw [Memory.writeSamples, ih _ _ y hoff, Memory.read_writeSample_ne _ _ h0 h1]

/-- While the region does not reach round to its own start, no Sample overwrites one before it. -/
theorem holdsSamples_writeSamples (xs : List Sample) (m : List Host.Cell) (a : Addr) (hfit : 2 * xs.length ≤ 2 ^ 32) :
    holdsSamples (Memory.writeSamples m a xs) a xs := by
  induction xs generalizing m a with
  | nil => exact nofun
  | cons x xs ih =>
    rw [List.length_cons] at hfit
    intro j y hy
    cases j with
    | zero =>
      obtain rfl : x = y := by simpa using hy
      have hkeep := keepsOutside_writeSamples xs (Memory.writeSample m a x) (a + 2)
      have h0 : 2 * xs.length ≤ (a - (a + 2)).toNat := by bv_omega
      have h1 : 2 * xs.length ≤ (a + 1 - (a + 2)).toNat := by bv_omega
      simp only [Memory.writeSamples, Nat.mul_zero, Nat.zero_add, BitVec.ofNat_eq_ofNat, BitVec.add_zero]
      exact ⟨(hkeep a h0).trans (Memory.read_writeSample_low m a x),
        (hkeep (a + 1) h1).trans (Memory.read_writeSample_high m a x)⟩
    | succ j =>
      have hlow : a + BitVec.ofNat 32 (2 * (j + 1)) = a + 2 + BitVec.ofNat 32 (2 * j) := by bv_omega
      have hhigh : a + BitVec.ofNat 32 (2 * (j + 1) + 1) = a + 2 + BitVec.ofNat 32 (2 * j + 1) := by bv_omega
      rw [Memory.writeSamples, hlow, hhigh]
      exact ih _ (a + 2) (by omega) j y (by simpa using hy)

/-! ## Runs along listed turns -/

/-- The turns `es` lead from `s` to `t`, whatever is scheduled after them. -/
def Leads (es : List Event) (s t : State) : Prop :=
  ∀ rest, Host.Core.run Sys2Proof.core es.length { s with schedule := es ++ rest } = .next { t with schedule := rest }

theorem Leads.nil (s : State) : Leads [] s s := fun _ => rfl

theorem Leads.append {es fs : List Event} {s t u : State} (h : Leads es s t) (h' : Leads fs t u) :
    Leads (es ++ fs) s u := by
  intro rest
  rw [List.length_append, List.append_assoc, run_add (h _)]
  exact h' rest

theorem leads_turn {e : Event} {s t : State}
    (h : ∀ rest, runEvent e { s with schedule := rest } = .next { t with schedule := rest }) : Leads [e] s t := by
  intro rest
  exact run_succ ((step_cons rfl).trans (h rest))

/-- A scheduled list of turns, run to its end. -/
theorem Leads.run {es rest : List Event} {s t : State} (h : Leads es s t) (hs : s.schedule = es ++ rest) :
    Host.Core.run Sys2Proof.core es.length s = .next { t with schedule := rest } := by
  rw [← h rest, ← hs]

/-- Turns that each change nothing. -/
theorem leads_stutter {es : List Event} {s : State} (h : ∀ e ∈ es, Leads [e] s s) : Leads es s s := by
  induction es with
  | nil => exact Leads.nil s
  | cons e es ih =>
    exact (h e List.mem_cons_self).append (ih fun f hf => h f (List.mem_cons_of_mem e hf))

/-! ## The turns of a pull -/

/-- ISSUE before the end of the region: the next read is requested (R221). -/
def State.requestRead (s : State) : State :=
  { s with
    eng := { s.eng with req := s.nextRequest, k := 0, state := .wait }
    trace := .req s.nextRequest :: s.trace }

/-- A PULL of a legal length while idle (R172). -/
def State.acceptPull (s : State) (len : Count) : State :=
  { s with
    csr := { s.csr with result := .none, done := false }
    eng := { s.eng with len := len, produced := 0, state := .issue } }

theorem acceptPull_len (s : State) (len : Count) : (s.acceptPull len).eng.len = len := rfl

theorem acceptPull_produced (s : State) (len : Count) : (s.acceptPull len).eng.produced.toNat = 0 := rfl

section Turns

variable {s : State}

theorem engineStep_requestRead (a : Bool) (hs : s.eng.state = .issue) (hp : s.eng.produced ≠ s.eng.len) :
    s.engineStep a = s.requestRead := (engineStep_issue a hs).trans (if_neg hp)

theorem engineStep_completeOk (a : Bool) (hs : s.eng.state = .issue) (hp : s.eng.produced = s.eng.len) :
    s.engineStep a = s.complete .ok := (engineStep_issue a hs).trans (if_pos hp)

theorem runEvent_pullTurn {len : Count} (hs : s.eng.state = .idle) (hlen : legalLength len = true) :
    runEvent (pullTurn len) s = .next (s.acceptPull len) :=
  (execPseudo_pull len s).trans (congrArg _ ((whenIdle_of_idle (State.startPull len) hs).trans (if_pos hlen)))

theorem leads_engine {t : State} {a : Bool}
    (h : ∀ rest, ({ s with schedule := rest } : State).engineStep a = { t with schedule := rest }) :
    Leads [.engine a] s t :=
  leads_turn fun rest => congrArg _ (h rest)

theorem leads_requestRead (a : Bool) (hs : s.eng.state = .issue) (hp : s.eng.produced ≠ s.eng.len) :
    Leads [.engine a] s s.requestRead :=
  leads_engine fun _ => engineStep_requestRead a hs hp

theorem leads_completeOk (a : Bool) (hs : s.eng.state = .issue) (hp : s.eng.produced = s.eng.len) :
    Leads [.engine a] s (s.complete .ok) :=
  leads_engine fun _ => engineStep_completeOk a hs hp

theorem leads_writeSample (hs : s.eng.state = .write) (hik : s.eng.i.toNat < s.eng.k.toNat) :
    Leads [.engine true] s s.writeSample :=
  leads_engine fun _ => engineStep_writeSample hs hik

theorem leads_writeEnd (a : Bool) (hs : s.eng.state = .write) (hik : s.eng.i = s.eng.k) :
    Leads [.engine a] s s.writeEnd :=
  leads_engine fun _ => engineStep_writeEnd a hs hik

theorem leads_frame {b : Beat} {more : List Beat} (hc : s.channel = b :: more) (hkind : b.getLsbD 33 = false)
    (hs : s.eng.state = .wait) (hk : s.eng.k.toNat < s.eng.req.toNat) :
    Leads [.source] s (({ s with channel := more } : State).takeFrame (b.extractLsb' 0 32)) :=
  leads_turn fun _ => sourceTurn_frame hc hkind hs hk

theorem leads_endOk {b : Beat} {more : List Beat} (hc : s.channel = b :: more) (hkind : b.getLsbD 33 = true)
    (hst : b.getLsbD 32 = false) (hs : s.eng.state = .wait) :
    Leads [.source] s ({ s with channel := more } : State).endRead :=
  leads_turn fun _ => sourceTurn_endOk hc hkind hst hs

theorem leads_endFault {b : Beat} {more : List Beat} (hc : s.channel = b :: more) (hkind : b.getLsbD 33 = true)
    (hst : b.getLsbD 32 = true) (hs : s.eng.state = .wait) :
    Leads [.source] s (({ s with channel := more } : State).complete .fault) :=
  leads_turn fun _ => sourceTurn_endFault hc hkind hst hs

theorem leads_pull {len : Count} (hs : s.eng.state = .idle) (hlen : legalLength len = true) :
    Leads [pullTurn len] s (s.acceptPull len) :=
  leads_turn fun _ => runEvent_pullTurn hs hlen

end Turns

/-! ## The Frames of a read -/

/-- From entry `n` on the Burst buffer holds these Frames. -/
def State.holdsFrames (s : State) (n : Nat) (ds : List Frame) : Prop :=
  ∀ j d, ds[j]? = some d → cellLookup (n + j) s.burst = some d

theorem holdsFrames_cons {s : State} {n : Nat} {d : Frame} {ds : List Frame} :
    s.holdsFrames n (d :: ds) ↔ cellLookup n s.burst = some d ∧ s.holdsFrames (n + 1) ds := by
  constructor
  · intro h
    exact ⟨h 0 d rfl, fun j e he => by rw [Nat.add_assoc, Nat.add_comm 1 j]; exact h (j + 1) e he⟩
  · rintro ⟨hd, hds⟩ j e he
    cases j with
    | zero => cases he; exact hd
    | succ j => rw [Nat.add_comm j 1, ← Nat.add_assoc]; exact hds j e he

/-- A counter below another does not wrap. -/
theorem toNat_succ_of_lt {x y : Count} (h : x.toNat < y.toNat) : (x + 1).toNat = x.toNat + 1 :=
  BitVec.toNat_add_of_lt (Nat.lt_of_le_of_lt h y.isLt)

/-- Accepting Frames fills the entries from `k` on, and keeps those before. -/
theorem leads_frames (ds : List Frame) (more : List Beat) {s : State} (hs : s.eng.state = .wait)
    (hroom : s.eng.k.toNat + ds.length ≤ s.eng.req.toNat) (hc : s.channel = ds.map frameBeat ++ more) :
    ∃ t, Leads (List.replicate ds.length .source) s t ∧
      t = { s with channel := more, burst := t.burst, eng := { s.eng with k := t.eng.k } } ∧
      t.eng.k.toNat = s.eng.k.toNat + ds.length ∧ t.holdsFrames s.eng.k.toNat ds ∧
      ∀ j < s.eng.k.toNat, cellLookup j t.burst = cellLookup j s.burst := by
  induction ds generalizing s with
  | nil =>
    obtain rfl : s.channel = more := hc
    exact ⟨s, Leads.nil s, rfl, rfl, nofun, fun _ _ => rfl⟩
  | cons d ds ih =>
    rw [List.length_cons] at hroom
    have hlt : s.eng.k.toNat < s.eng.req.toNat := by omega
    have hk := toNat_succ_of_lt hlt
    have hkind : (frameBeat d).getLsbD 33 = false := beat_kind_bit 0 0 d
    have hdata : (frameBeat d).extractLsb' 0 32 = d := beat_data 0 0 d
    have hturn := leads_frame hc hkind hs hlt
    rw [hdata] at hturn
    obtain ⟨t, hlead, ht, hkt, hheld, hkeep⟩ :=
      ih (s := ({ s with channel := ds.map frameBeat ++ more } : State).takeFrame d) hs
        (by simp only [takeFrame_eng, hk]; omega) rfl
    simp only [takeFrame_eng, takeFrame_burst, hk] at hkt hheld hkeep
    refine ⟨t, hturn.append hlead, ht, by rw [hkt, List.length_cons]; omega, holdsFrames_cons.2 ⟨?_, hheld⟩, fun j hj => ?_⟩
    · rw [hkeep _ (Nat.lt_succ_self _)]
      exact cellLookup_insert_self _ _ _
    · rw [hkeep j (Nat.lt_succ_of_lt hj)]
      exact cellLookup_insert_ne _ _ (Nat.ne_of_lt hj)

/-! ## The progress of a pull -/

/-- From `s` to `t` a pull has issued the requests `rs` and written the Samples `xs` at the cursor. -/
structure Advances (rs : List Nat) (xs : List Sample) (s t : State) : Prop where
  csr : t.csr = s.csr
  len : t.eng.len = s.eng.len
  produced : t.eng.produced.toNat = s.eng.produced.toNat + 2 * xs.length
  outmem : t.outmem = Memory.writeSamples s.outmem s.cursorAddr xs
  requests : t.requests = s.requests ++ rs

theorem cursorAddr_eq (s : State) : s.cursorAddr = s.csr.bufBase + BitVec.ofNat 32 s.eng.produced.toNat := by
  rw [State.cursorAddr, BitVec.ofNat_toNat]

section Advances

variable {s t u : State} {rs qs : List Nat} {xs ys : List Sample}

/-- A step that neither requests nor writes. -/
theorem Advances.of_eq (hcsr : t.csr = s.csr) (hlen : t.eng.len = s.eng.len)
    (hprod : t.eng.produced = s.eng.produced) (hmem : t.outmem = s.outmem) (htrace : t.trace = s.trace) :
    Advances [] [] s t :=
  ⟨hcsr, hlen, by rw [hprod]; rfl, hmem, by rw [List.append_nil, State.requests, htrace]; rfl⟩

theorem Advances.cursorAddr (h : Advances rs xs s t) :
    t.cursorAddr = s.cursorAddr + BitVec.ofNat 32 (2 * xs.length) := by
  rw [cursorAddr_eq, cursorAddr_eq, h.csr, h.produced, BitVec.ofNat_add, BitVec.add_assoc]

theorem Advances.remaining (h : Advances rs xs s t) : t.eng.remaining = s.eng.remaining - xs.length := by
  rw [Engine.remaining, Engine.remaining, h.len, h.produced]
  omega

theorem Advances.trans (h : Advances rs xs s t) (h' : Advances qs ys t u) : Advances (rs ++ qs) (xs ++ ys) s u where
  csr := h'.csr.trans h.csr
  len := h'.len.trans h.len
  produced := by rw [h'.produced, h.produced, List.length_append]; omega
  outmem := by rw [h'.outmem, h.outmem, h.cursorAddr, Memory.writeSamples_append]
  requests := by rw [h'.requests, h.requests, List.append_assoc]

theorem advances_requestRead (s : State) : Advances [min s.eng.remaining s.csr.burstCap.toNat] [] s s.requestRead where
  csr := rfl
  len := rfl
  produced := rfl
  outmem := rfl
  requests := by
    have hreq : Observation.requested (.req s.nextRequest) = some (min s.eng.remaining s.csr.burstCap.toNat) :=
      congrArg some (nextRequest_toNat s)
    rw [State.requests, State.requestRead, List.filterMap_cons_some hreq, List.reverse_cons]
    rfl

theorem advances_writeSample (hroom : s.eng.produced.toNat + 2 < 2 ^ 16) :
    Advances [] [s.csr.convert (s.burstEntry s.eng.i)] s s.writeSample where
  csr := rfl
  len := rfl
  produced := BitVec.toNat_add_of_lt hroom
  outmem := rfl
  requests := (List.append_nil _).symm

end Advances

/-- Writing the burst from entry `i` on writes its converted Frames. -/
theorem leads_writes (ds : List Frame) {s : State} (hs : s.eng.state = .write)
    (hik : s.eng.i.toNat + ds.length = s.eng.k.toNat) (hroom : s.eng.produced.toNat + 2 * ds.length < 2 ^ 16)
    (hheld : s.holdsFrames s.eng.i.toNat ds) :
    ∃ t, Leads (List.replicate ds.length (.engine true)) s t ∧ Advances [] (ds.map s.csr.convert) s t ∧
      t.eng.state = .write ∧ t.eng.i = t.eng.k ∧ t.channel = s.channel := by
  induction ds generalizing s with
  | nil => exact ⟨s, Leads.nil s, .of_eq rfl rfl rfl rfl rfl, hs, BitVec.eq_of_toNat_eq hik, rfl⟩
  | cons d ds ih =>
    rw [List.length_cons] at hik hroom
    obtain ⟨hd, hds⟩ := holdsFrames_cons.1 hheld
    have hentry : s.burstEntry s.eng.i = d := by rw [State.burstEntry, hd, Option.getD_some]
    have hlt : s.eng.i.toNat < s.eng.k.toNat := by omega
    have hi := toNat_succ_of_lt hlt
    have hadv := advances_writeSample (s := s) (by omega)
    rw [hentry] at hadv
    obtain ⟨t, hlead, hadv', hst, hend, hc⟩ := ih (s := s.writeSample) hs
      (by simp only [writeSample_eng, hi]; omega)
      (by rw [hadv.produced, List.length_singleton]; omega)
      (by rw [writeSample_eng, hi]; exact hds)
    exact ⟨t, (leads_writeSample hs hlt).append hlead, hadv.trans hadv', hst, hend, hc⟩

/-! ## The reads of a pull -/

section Reads

variable {s : State} {more : List Beat}

/-- A read up to its End beat: one request, and its Frames in the Burst buffer. -/
theorem leads_delivery (ds : List Frame) (hs : s.eng.state = .issue)
    (hlt : s.eng.produced.toNat < s.eng.len.toNat)
    (hfit : s.eng.produced.toNat + 2 * ds.length ≤ s.eng.len.toNat) (hcap : ds.length ≤ s.csr.burstCap.toNat)
    (hc : s.channel = ds.map frameBeat ++ more) :
    ∃ t, Leads (.engine true :: List.replicate ds.length .source) s t ∧
      Advances [min s.eng.remaining s.csr.burstCap.toNat] [] s t ∧
      t.eng.state = .wait ∧ t.eng.k.toNat = ds.length ∧ t.holdsFrames 0 ds ∧ t.channel = more := by
  have hp : s.eng.produced ≠ s.eng.len := fun h => Nat.lt_irrefl _ (h ▸ hlt)
  have hroom : s.requestRead.eng.k.toNat + ds.length ≤ s.requestRead.eng.req.toNat := by
    show 0 + ds.length ≤ s.nextRequest.toNat
    rw [nextRequest_toNat]
    omega
  obtain ⟨t, hlead, ht, hk, hheld, -⟩ := leads_frames ds more (s := s.requestRead) rfl hroom hc
  have hadv : Advances [] [] s.requestRead t := by
    rw [ht]
    exact .of_eq rfl rfl rfl rfl rfl
  refine ⟨t, (leads_requestRead true hs hp).append hlead, (advances_requestRead s).trans hadv, ?_, ?_, hheld, ?_⟩
  · rw [ht]; rfl
  · rw [hk]; exact Nat.zero_add _
  · rw [ht]

theorem okReadTurns_eq (n : Nat) :
    okReadTurns n = (.engine true :: List.replicate n .source) ++
      ([.source] ++ (List.replicate n (.engine true) ++ [.engine true])) := by
  simp [okReadTurns, List.replicate_succ']

theorem faultReadTurns_eq (n : Nat) :
    faultReadTurns n = (.engine true :: List.replicate n .source) ++ [.source] := by
  simp [faultReadTurns, List.replicate_succ']

/-- A read that ends Ok writes its converted Frames and leads back to ISSUE (R224, R226, R227). -/
theorem leads_okRead (ds : List Frame) (hs : s.eng.state = .issue)
    (hlt : s.eng.produced.toNat < s.eng.len.toNat)
    (hfit : s.eng.produced.toNat + 2 * ds.length ≤ s.eng.len.toNat) (hcap : ds.length ≤ s.csr.burstCap.toNat)
    (hc : s.channel = answerOk ds ++ more) :
    ∃ t, Leads (okReadTurns ds.length) s t ∧
      Advances [min s.eng.remaining s.csr.burstCap.toNat] (ds.map s.csr.convert) s t ∧
      t.eng.state = .issue ∧ t.channel = more := by
  have hlen := s.eng.len.isLt
  rw [answerOk, List.append_assoc] at hc
  obtain ⟨w, hleadw, hadvw, hwait, hk, hheld, hcw⟩ := leads_delivery ds hs hlt hfit hcap hc
  have hprod := hadvw.produced
  have hend := leads_endOk (s := w) hcw (by decide) (by decide) hwait
  have hadve : Advances [] [] w ({ w with channel := more } : State).endRead := .of_eq rfl rfl rfl rfl rfl
  obtain ⟨x, hleadx, hadvx, hwrite, hik, hcx⟩ := leads_writes ds (s := ({ w with channel := more } : State).endRead) rfl
    ((Nat.zero_add _).trans hk.symm) (by simp only [endRead_eng, hprod, List.length_nil]; omega) hheld
  have hadvend : Advances [] [] x x.writeEnd := .of_eq rfl rfl rfl rfl rfl
  have hconv : ({ w with channel := more } : State).endRead.csr.convert = s.csr.convert := congrArg _ hadvw.csr
  rw [hconv] at hadvx
  refine ⟨x.writeEnd, ?_, by simpa using hadvw.trans (hadve.trans (hadvx.trans hadvend)), rfl, hcx⟩
  rw [okReadTurns_eq]
  exact hleadw.append (hend.append (hleadx.append (leads_writeEnd true hwrite hik)))

/-- The reads of a pull that end before the region does. -/
theorem leads_okReads (bursts : List (List Frame)) (hs : s.eng.state = .issue)
    (hlt : s.eng.produced.toNat + 2 * bursts.flatten.length < s.eng.len.toNat)
    (hcap : ∀ b ∈ bursts, b.length ≤ s.csr.burstCap.toNat) (hc : s.channel = bursts.flatMap answerOk ++ more) :
    ∃ t, Leads (bursts.flatMap fun b => okReadTurns b.length) s t ∧
      Advances (requestSizes s.csr.burstCap.toNat s.eng.remaining (bursts.map List.length))
        (bursts.flatten.map s.csr.convert) s t ∧
      t.eng.state = .issue ∧ t.channel = more := by
  induction bursts generalizing s with
  | nil => exact ⟨s, Leads.nil s, .of_eq rfl rfl rfl rfl rfl, hs, hc⟩
  | cons b bursts ih =>
    rw [List.flatten_cons, List.length_append] at hlt
    rw [List.flatMap_cons, List.append_assoc] at hc
    obtain ⟨hcapb, hcaps⟩ := List.forall_mem_cons.1 hcap
    obtain ⟨t, hlead, hadv, hst, hct⟩ := leads_okRead b hs (by omega) (by omega) hcapb hc
    obtain ⟨u, hlead', hadv', hsu, hcu⟩ := ih (s := t) hst
      (by rw [hadv.produced, hadv.len, List.length_map]; omega) (by rwa [hadv.csr]) hct
    rw [hadv.remaining, hadv.csr, List.length_map] at hadv'
    refine ⟨u, hlead.append hlead', ?_, hsu, hcu⟩
    rw [List.flatten_cons, List.map_append]
    exact hadv.trans hadv'

end Reads

/-! ## Whole pulls -/

theorem requestSizes_append (cap n : Nat) (ks ls : List Nat) :
    requestSizes cap n (ks ++ ls) = requestSizes cap n ks ++ requestSizes cap (n - ks.sum) ls := by
  induction ks generalizing n with
  | nil => rfl
  | cons k ks ih => simp only [List.cons_append, requestSizes, ih, List.sum_cons, Nat.sub_add_eq]

/-- The number of reads that each deliver all they are asked for, the last one a Frame or more (R236). -/
theorem length_of_full_reads {cap n : Nat} {ks : List Nat} (hcap : 1 ≤ cap) (hsum : ks.sum = n)
    (hlast : ks.getLast? ≠ some 0) (hfull : ks = requestSizes cap n ks) : ks.length = (n + cap - 1) / cap := by
  induction ks generalizing n with
  | nil =>
    subst hsum
    exact (Nat.div_eq_of_lt (by simp; omega)).symm
  | cons k ks ih =>
    obtain ⟨hk, hrest⟩ : k = min n cap ∧ ks = requestSizes cap (n - k) ks := List.cons.inj hfull
    rw [List.sum_cons] at hsum
    cases ks with
    | nil =>
      have hpos : k ≠ 0 := fun h => hlast (by rw [h]; rfl)
      rw [List.sum_nil] at hsum
      exact (Nat.div_eq_of_lt_le (by simp; omega) (by simp; omega)).symm
    | cons k' ks =>
      rw [List.getLast?_cons_cons] at hlast
      have hmore : (k' :: ks).sum ≠ 0 := by
        intro hzero
        have hl := List.getLast?_eq_some_getLast (List.cons_ne_nil k' ks)
        exact hlast (by rw [hl, List.sum_eq_zero_iff.1 hzero _ (List.mem_of_getLast? hl)])
      have hkcap : k = cap := by omega
      have hceil : n + cap - 1 = (n - k + cap - 1) + cap := by omega
      rw [List.length_cons, ih (by omega) hlast hrest, hceil, Nat.add_div_right _ (by omega)]

/-- The cursor and the length once these Frames are written. -/
theorem Advances.from_start {s t : State} {len : Count} {rs : List Nat} {ds : List Frame} {f : Frame → Sample}
    (h : Advances rs (ds.map f) (s.acceptPull len) t) : t.eng.produced.toNat = 2 * ds.length ∧ t.eng.len = len :=
  ⟨by rw [h.produced, acceptPull_produced, List.length_map, Nat.zero_add], h.len⟩

section WholePulls

variable {s : State} {len : Count} {bursts : List (List Frame)} {more : List Beat}

/-- A pull whose reads all end Ok, the last one with a Frame or more. -/
theorem leads_okPull (hs : s.eng.state = .idle) (hlen : len.toNat = 2 * bursts.flatten.length)
    (hlast : ∃ l x, bursts.getLast? = some (x :: l)) (hcap : ∀ b ∈ bursts, b.length ≤ s.csr.burstCap.toNat)
    (hc : s.channel = bursts.flatMap answerOk ++ more) :
    ∃ u, Leads (okPullTurns len bursts) s (u.complete .ok) ∧
      Advances (requestSizes s.csr.burstCap.toNat (len.toNat / 2) (bursts.map List.length))
        (bursts.flatten.map s.csr.convert) (s.acceptPull len) u ∧
      u.channel = more := by
  obtain ⟨l, x, hlast⟩ := hlast
  obtain ⟨init, rfl⟩ := List.getLast?_eq_some_iff.1 hlast
  obtain ⟨hcaps, hcapl⟩ := List.forall_mem_append.1 hcap
  have hcapl := hcapl _ (List.mem_singleton_self _)
  have hflat : (init ++ [x :: l]).flatten = init.flatten ++ (x :: l) := by simp
  rw [hflat, List.length_append, List.length_cons] at hlen
  rw [List.flatMap_append, List.flatMap_singleton, List.append_assoc] at hc
  have hlegal : legalLength len = true := (legalLength_iff len).2 (by omega)
  obtain ⟨t, hleadt, hadvt, hst, hct⟩ := leads_okReads init (s := s.acceptPull len) rfl
    (by rw [acceptPull_produced, acceptPull_len]; omega) hcaps hc
  obtain ⟨hprodt, hlent⟩ := hadvt.from_start
  obtain ⟨u, hleadu, hadvu, hsu, hcu⟩ := leads_okRead (x :: l) hst (by rw [hprodt, hlent]; omega)
    (by rw [hprodt, hlent, List.length_cons]; omega) (by rwa [hadvt.csr]) hct
  have hend : u.eng.produced = u.eng.len := by
    apply BitVec.eq_of_toNat_eq
    rw [hadvu.produced, hadvu.len, hprodt, hlent, List.length_map, List.length_cons]
    omega
  refine ⟨u, ?_, ?_, hcu⟩
  · rw [okPullTurns, List.flatMap_append, List.flatMap_singleton]
    exact (leads_pull hs hlegal).append ((hleadt.append hleadu).append (leads_completeOk true hsu hend))
  · have hadv := hadvt.trans hadvu
    rw [hadvt.remaining, hadvt.csr, List.length_map, List.length_flatten] at hadv
    rw [hflat, List.map_append, List.map_append, requestSizes_append]
    exact hadv

/-- A pull whose reads end Ok but for the last one, which ends Fault. -/
theorem leads_faultPull {last : List Frame} (hs : s.eng.state = .idle) (heven : len.toNat % 2 = 0)
    (hfit : 2 * (bursts.flatten.length + last.length) ≤ len.toNat) (hlt : 2 * bursts.flatten.length < len.toNat)
    (hcap : ∀ b ∈ bursts, b.length ≤ s.csr.burstCap.toNat) (hcapl : last.length ≤ s.csr.burstCap.toNat)
    (hc : s.channel = bursts.flatMap answerOk ++ (answerFault last ++ more)) :
    ∃ u rs, Leads (faultPullTurns len bursts last) s (u.complete .fault) ∧
      Advances rs (bursts.flatten.map s.csr.convert) (s.acceptPull len) u ∧ u.channel = more := by
  have hlegal : legalLength len = true := (legalLength_iff len).2 ⟨by omega, heven⟩
  obtain ⟨t, hleadt, hadvt, hst, hct⟩ := leads_okReads bursts (s := s.acceptPull len) rfl
    (by rw [acceptPull_produced, acceptPull_len]; omega) hcap hc
  obtain ⟨hprodt, hlent⟩ := hadvt.from_start
  rw [answerFault, List.append_assoc] at hct
  obtain ⟨w, hleadw, hadvw, hwait, -, -, hcw⟩ := leads_delivery last hst (by rw [hprodt, hlent]; omega)
    (by rw [hprodt, hlent]; omega) (by rwa [hadvt.csr]) hct
  have hadv := hadvt.trans (hadvw.trans (.of_eq (t := { w with channel := more }) rfl rfl rfl rfl rfl))
  simp only [List.append_nil] at hadv
  refine ⟨_, _, ?_, hadv, rfl⟩
  rw [faultPullTurns, faultReadTurns_eq]
  exact (leads_pull hs hlegal).append (hleadt.append (hleadw.append (leads_endFault hcw (by decide) (by decide) hwait)))

end WholePulls

/-- What the end of a pull leaves once these Frames are written. -/
theorem complete_of_advances {s u : State} {len : Count} {ds : List Frame} {rs : List Nat} (r : Result)
    (hfit : 2 * ds.length ≤ len.toNat) (h : Advances rs (ds.map s.csr.convert) (s.acceptPull len) u) :
    (u.complete r).csr = { s.csr with done := true, result := r } ∧
      (u.complete r).eng.produced.toNat = 2 * ds.length ∧
      holdsSamples (u.complete r).outmem s.csr.bufBase (ds.map s.csr.convert) ∧
      keepsOutside s.outmem (u.complete r).outmem s.csr.bufBase (2 * ds.length) := by
  have hlen := len.isLt
  obtain ⟨hprod, -⟩ := h.from_start
  have hmem : u.outmem = Memory.writeSamples s.outmem s.csr.bufBase (ds.map s.csr.convert) := by
    rw [h.outmem, cursorAddr_eq, acceptPull_produced]
    exact congrArg (Memory.writeSamples s.outmem · _) (BitVec.add_zero _)
  have hkeep := keepsOutside_writeSamples (ds.map s.csr.convert) s.outmem s.csr.bufBase
  rw [List.length_map] at hkeep
  rw [complete_csr, complete_outmem, h.csr, hmem]
  exact ⟨rfl, hprod, holdsSamples_writeSamples _ _ _ (by rw [List.length_map]; omega), hkeep⟩

/-! ## The obligations on whole pulls -/

/-- Settles O56: each read writes its own Frames at the cursor, and the last one reaches the end of the region. -/
theorem pullWritesExactlyTheConvertedFramesInOrder : Obligations.PullWritesExactlyTheConvertedFramesInOrder := by
  intro s len bursts more _ hs hlen hlast hcap hc hsched
  obtain ⟨u, hlead, hadv, hcu⟩ := leads_okPull hs hlen hlast hcap hc
  obtain ⟨hcsr, hprod, hholds, hkeeps⟩ := complete_of_advances .ok hlen.ge hadv
  rw [← hlen] at hprod hkeeps
  exact ⟨_, hlead.run (hsched.trans (List.append_nil _).symm), hcsr, rfl, hadv.len, BitVec.eq_of_toNat_eq hprod, hcu, rfl,
    hholds, hkeeps⟩

/-- Settles O57: each request is its read's; the last read delivers a Frame, so no read of the count is one more than needed. -/
theorem pullRequestsTheRemainingSamples : Obligations.PullRequestsTheRemainingSamples := by
  intro s len bursts more hI hs hlen hlast hcap hc hsched cap sizes
  obtain ⟨u, hlead, hadv, -⟩ := leads_okPull hs hlen hlast hcap hc
  refine ⟨_, hlead.run (hsched.trans (List.append_nil _).symm), hadv.requests, fun hfull => ?_⟩
  obtain ⟨l, x, hlast⟩ := hlast
  have hsum : (bursts.map List.length).sum = len.toNat / 2 := by
    rw [hlen, List.length_flatten]
    omega
  have hpos : (bursts.map List.length).getLast? ≠ some 0 := by simp [hlast]
  simpa using length_of_full_reads hI.capLegal.1 hsum hpos hfull

/-- Settles O58: the read that ends Fault writes nothing. -/
theorem faultedPullKeepsExactlyTheWrittenPrefix : Obligations.FaultedPullKeepsExactlyTheWrittenPrefix := by
  intro s len bursts last more _ hs heven hfit hlt hcap hcapl hc hsched
  obtain ⟨u, rs, hlead, hadv, hcu⟩ := leads_faultPull hs heven hfit hlt hcap hcapl hc
  obtain ⟨hcsr, hprod, hholds, hkeeps⟩ := complete_of_advances .fault hlt.le hadv
  exact ⟨_, hlead.run (hsched.trans (List.append_nil _).symm), hcsr, rfl, hadv.len, hprod, hcu, rfl, hholds, hkeeps⟩

/-- An End(Ok) beat by its two control bits (R116). -/
theorem end_ok_bits {b : Beat} (h : b.extractLsb' 32 2 = 2) : b.getLsbD 33 = true ∧ b.getLsbD 32 = false := by
  have hbit (i : Nat) : (b.extractLsb' 32 2).getLsbD i = (2#2).getLsbD i := congrArg (·.getLsbD i) h
  have h0 := hbit 0
  have h1 := hbit 1
  rw [BitVec.getLsbD_extractLsb'] at h0 h1
  exact ⟨h1, h0⟩

/-- Settles O59: the End beat of an empty read finds `i = k` in WRITE, and ISSUE asks for the same again. -/
theorem emptyReadReissuesTheSameRequest : Obligations.EmptyReadReissuesTheSameRequest := by
  intro s a1 a2 a3 b more rest _ hs hp hc hb hsched
  obtain ⟨hkind, hst⟩ := end_ok_bits hb
  have hrequest := leads_requestRead a1 hs hp
  have hend := leads_endOk (s := s.requestRead) hc hkind hst rfl
  have hwrite := leads_writeEnd (s := ({ s.requestRead with channel := more } : State).endRead) a2 rfl rfl
  have hagain := leads_requestRead
    (s := ({ s.requestRead with channel := more } : State).endRead.writeEnd) a3 rfl hp
  have hrun := (hrequest.append (hend.append (hwrite.append hagain))).run hsched
  exact ⟨s.nextRequest, _, hrun, nextRequest_toNat s, rfl, rfl, rfl, rfl, rfl, rfl, rfl⟩

/-- Settles O60: each of the turns finds no enabled step. -/
theorem stuckPullsHold : Obligations.StuckPullsHold := by
  intro n s turns hn hsched hstuck
  subst hn
  refine (leads_stutter fun e he => ?_).run (hsched.trans (List.append_nil _).symm)
  rcases hstuck with ⟨hs, hturns, hc⟩ | ⟨hs, hik, hturns⟩
  · rcases hturns e he with rfl | ⟨a, rfl⟩
    · rcases hc with hc | ⟨b, more, hc, hkind, hfull⟩
      · exact leads_turn fun _ => sourceTurn_empty hc
      · exact leads_turn fun _ => sourceTurn_refused hc (acceptsBeat_of_full hkind hfull)
    · exact leads_engine fun _ => engineStep_of_idle_or_wait a (Or.inr hs)
  · rcases hturns e he with rfl | rfl
    · exact leads_turn fun _ => sourceTurn_of_not_wait (by simp [hs])
    · exact leads_engine fun _ => engineStep_stalled hs hik

end Sys2Proof.Machine

/-! # What every transaction leaves unchanged (60_exceptions.md)

No transaction has an exception entry: `exec` always answers a state (R300). Each instruction is a guard around one update of the
state, and every such update keeps what `KeepsSurroundings` lists. -/

namespace Sys2Proof.Machine

/-- What lies outside the reach of a transaction: OUTMEM, which the ENGINE and the HOST's own path write (R92), PARAM, which is
hardwired (R44), and the channel, the schedule and the count of resets, which the step and the other agents move (log 4). -/
structure KeepsSurroundings (s t : State) : Prop where
  outmem : t.outmem = s.outmem
  burstCap : t.csr.burstCap = s.csr.burstCap
  channel : t.channel = s.channel
  schedule : t.schedule = s.schedule
  resets : t.resets = s.resets

namespace KeepsSurroundings

/-! ## The updates a transaction is made of -/

theorem refl (s : State) : KeepsSurroundings s s := ⟨rfl, rfl, rfl, rfl, rfl⟩

theorem emit (s : State) (o : Observation) : KeepsSurroundings s (s.emit o) := ⟨rfl, rfl, rfl, rfl, rfl⟩

theorem observeDone_emit (s : State) (o : Observation) : KeepsSurroundings s (s.observeDone.emit o) where
  outmem := observeDone_outmem s
  burstCap := congrArg Csr.burstCap (observeDone_csr s)
  channel := observeDone_channel s
  schedule := observeDone_schedule s
  resets := observeDone_resets s

theorem flagProtocolError (s : State) : KeepsSurroundings s s.flagProtocolError := ⟨rfl, rfl, rfl, rfl, rfl⟩

theorem release (s : State) : KeepsSurroundings s s.release := ⟨rfl, rfl, rfl, rfl, rfl⟩

theorem setBufBase (s : State) (w : Word) : KeepsSurroundings s (s.setBufBase w) := ⟨rfl, rfl, rfl, rfl, rfl⟩

theorem setGain (s : State) (w : Word) : KeepsSurroundings s (s.setGain w) := ⟨rfl, rfl, rfl, rfl, rfl⟩

theorem setClamp (s : State) (w : Word) : KeepsSurroundings s (s.setClamp w) := ⟨rfl, rfl, rfl, rfl, rfl⟩

theorem takeFrame (s : State) (d : Frame) : KeepsSurroundings s (s.takeFrame d) := ⟨rfl, rfl, rfl, rfl, rfl⟩

theorem endRead (s : State) : KeepsSurroundings s s.endRead := ⟨rfl, rfl, rfl, rfl, rfl⟩

theorem complete (s : State) (r : Result) : KeepsSurroundings s (s.complete r) := ⟨rfl, rfl, rfl, rfl, rfl⟩

/-- PULL, accepted or rejected. -/
theorem startPull (s : State) (len : Count) : KeepsSurroundings s (s.startPull len) := by
  rcases startPull_cases len s with ⟨-, h⟩ | ⟨-, h⟩ <;> rw [h] <;> exact ⟨rfl, rfl, rfl, rfl, rfl⟩

/-! ## The guards -/

variable {s t : State}

/-- A dropped command or configuration write sets PROTO_ERR alone. -/
theorem whenIdle {effect : State → State} (h : KeepsSurroundings s (effect s)) :
    KeepsSurroundings s (s.whenIdle effect) := by
  rcases whenIdle_cases s effect with ⟨-, ht⟩ | ⟨-, ht⟩ <;> rw [ht]
  · exact h
  · exact flagProtocolError s

/-- A refused beat changes nothing (log 2). -/
theorem ifAccepted (accepts : Bool) (h : KeepsSurroundings s t) : KeepsSurroundings s (if accepts then t else s) := by
  cases accepts
  · exact refl s
  · exact h

end KeepsSurroundings

/-! ## Every instruction -/

theorem runCommandWord_keepsSurroundings (w : Word) (s : State) :
    ∃ t, runCommandWord w s = .next t ∧ KeepsSurroundings s t := by
  rcases runCommandWord_cases w s with ⟨-, h⟩ | ⟨-, h⟩ | ⟨-, h⟩ | ⟨-, h⟩
  · exact ⟨_, h, .refl s⟩
  · exact ⟨_, h, .whenIdle (.startPull s _)⟩
  · exact ⟨_, h, .whenIdle (.release s)⟩
  · exact ⟨_, h, .whenIdle (.flagProtocolError s)⟩

theorem exec_keepsSurroundings (i : Instr) (s : State) : ∃ t, exec i s = .next t ∧ KeepsSurroundings s t := by
  cases i with
  | nop => exact ⟨_, rfl, .refl s⟩
  | pull => exact ⟨_, rfl, .whenIdle (.startPull s _)⟩
  | ack => exact ⟨_, rfl, .whenIdle (.release s)⟩
  | reservedCmd3 | reservedCmd4to7 | reservedCmd8to15 => exact ⟨_, rfl, .whenIdle (.flagProtocolError s)⟩
  | rdStatus => exact ⟨_, rfl, .observeDone_emit s _⟩
  | rdCtrl | rdBufBase | rdGain | rdClamp | rdParam | rdReqLen | rdRsv1C | rdRsv20to3F => exact ⟨_, rfl, .emit s _⟩
  | wrCtrl _ w => exact runCommandWord_keepsSurroundings w s
  | wrBufBase _ w => exact ⟨_, rfl, .whenIdle (.setBufBase s w)⟩
  | wrGain _ w => exact ⟨_, rfl, .whenIdle (.setGain s w)⟩
  | wrClamp _ w => exact ⟨_, rfl, .whenIdle (.setClamp s w)⟩
  | wrStatus | wrParam | wrReqLen | wrRsv5C | wrRsv60to7F => exact ⟨_, rfl, .refl s⟩
  | frame _ d => exact ⟨_, rfl, .ifAccepted _ (.takeFrame s d)⟩
  | endOk => exact ⟨_, rfl, .ifAccepted _ (.endRead s)⟩
  | endFault => exact ⟨_, rfl, .ifAccepted _ (.complete s _)⟩

/-- Settles O36: every instruction keeps OUTMEM itself, so each of its bytes. -/
theorem everyTransactionCompletesAndStoresNothing : Obligations.EveryTransactionCompletesAndStoresNothing := by
  intro i s
  obtain ⟨t, ht, hkeeps⟩ := exec_keepsSurroundings i s
  exact ⟨t, ht, fun a => by rw [hkeeps.outmem], hkeeps.burstCap, hkeeps.channel, hkeeps.schedule, hkeeps.resets⟩

end Sys2Proof.Machine

/-! # Reset, and a register written and read back (70_reset_and_hazards.md)

Reset is a step like any other (R340), and a read that follows a configuration write sees it (R350). -/

namespace Sys2Proof.Machine

/-! ## What a register written reads as -/

/-- GAIN holds the low 20 bits of what is written to it (R42, R198, R199). -/
theorem gainWord_setGain (s : State) (w : Word) : (s.setGain w).csr.gainWord = w &&& 0x000FFFFF := by
  have hmask : (w &&& 0x000FFFFF).toNat = w.toNat % 2 ^ 20 := Nat.and_two_pow_sub_one_eq_mod w.toNat 20
  apply BitVec.eq_of_toNat_eq
  rw [hmask]
  simp only [setGain_csr, Csr.gainWord, append_toNat, BitVec.extractLsb'_toNat, Nat.shiftRight_eq_div_pow,
    BitVec.toNat_ofNat]
  omega

/-- CLAMP holds the whole word written to it (R43, R200, R201). -/
theorem clampWord_setClamp (s : State) (w : Word) : (s.setClamp w).csr.clampWord = w :=
  (BitVec.extractLsb'_append_extractLsb'_eq_extractLsb' rfl).trans BitVec.extractLsb'_eq_self

/-! ## The obligations -/

/-- Settles O22: while idle the write takes effect, and the read emits the word the register then holds. -/
theorem configurationWriteReadsBackAtOnce : Obligations.ConfigurationWriteReadsBackAtOnce := by
  intro l l' w s hidle
  obtain ⟨hbase, hgain, hclamp⟩ := (configurationWritesWhileIdleAndBusy l w s).1 hidle
  refine ⟨⟨_, _, hbase, rfl, rfl⟩, ⟨_, _, hgain, rfl, ?_⟩, ⟨_, _, hclamp, rfl, ?_⟩⟩
  · exact congrArg (.rdata · :: s.trace) (gainWord_setGain s w)
  · exact congrArg (.rdata · :: s.trace) (clampWord_setClamp s w)

/-- Settles O2: the step is `onReset` of the state with the reset taken off the schedule, and the registers read as in
`State.reset` (R56). -/
theorem resetFromAnyStateReachesTheResetValues : Obligations.ResetFromAnyStateReachesTheResetValues := by
  intro s rest hsched
  obtain ⟨-, -, -, -, -, hstatus, -, hgain, -, -, hclamp, -, -, -, hreqLen, -⟩ := resetStateHoldsTheListedValues
  exact ⟨({ s with schedule := rest } : State).onReset, step_cons hsched, rfl, rfl, rfl, hstatus, rfl, hgain, hclamp,
    hreqLen, rfl, rfl, rfl, fun _ => rfl, rfl, rfl, rfl, rfl, rfl⟩

end Sys2Proof.Machine
